-- ==== Sys2Proof/Word.lean ====
section
/-! DEFINITION. The widths the core works with (spec/00_scope.md R9, R11, R12). -/

namespace Sys2Proof

/-- A 32-bit register or bus value (R11: register-bus data width 32 bits). -/
abbrev Word := BitVec 32

/-- A 256-bit magnitude register or divisor (R9: WMAG = 256). -/
abbrev Mag := BitVec 256

/-- One digit cell (R11: digit storage width 4 bits; R29: it can hold 0 to 15). -/
abbrev Cell := BitVec 4

/-- A digit sequence, most significant digit first (R14). The digits are mathematical integers (R12). -/
abbrev DigitSeq := List Nat

/-- The index of a magnitude register M0-M3 (R11: NM = 4; R63: unsigned 2-bit index). -/
abbrev MIdx := Fin 4

/-- The index of a digit-sequence register D0-D3 (R11: ND = 4; R63: unsigned 2-bit index). -/
abbrev DIdx := Fin 4

end Sys2Proof
end

