-- ==== Sys2Proof/Syntax.lean ====
section
/-! DEFINITION. The commands of the core: one constructor for each row of spec/opcode_table.json
(spec/30_encoding.md R60, R66), and the pseudo-commands (R71). -/

namespace Sys2Proof

/-- A command. A register index is bounded by its type (R63); an immediate is a mathematical integer, 0 to 255 in a
well-formed command (R64). -/
inductive Instr where
  /-- `TODIG Dd, Ma` (R80). -/
  | todig (rd : DIdx) (ra : MIdx)
  /-- `FROMDIG Md, Da` (R82). -/
  | fromdig (rd : MIdx) (ra : DIdx)
  /-- `DMUL Dd, Da, Db` (R101). -/
  | dmul (rd ra rb : DIdx)
  /-- `DDIV Dd, Da, Mb` (R112). -/
  | ddiv (rd ra : DIdx) (rb : MIdx)
  /-- `DALIGN Dd, Da, #src, #tgt` (R91): `src` is IMMB, the scale `from`; `tgt` is IMM, the scale `to`. -/
  | dalign (rd ra : DIdx) (src tgt : Nat)
  /-- `OVCHK Da` (R94). -/
  | ovchk (ra : DIdx)
  /-- `MULDEC Md, Ma, Mb, #rs` (R140, DS = 0). -/
  | muldec (rd ra rb : MIdx) (rs : Nat)
  /-- `MULDEC Md, Ma, Mb, DEFAULT` (R140, DS = 1). -/
  | muldecDefault (rd ra rb : MIdx)
  /-- `DIVDEC Md, Ma, Mb, #rs` (R145, DS = 0). -/
  | divdec (rd ra rb : MIdx) (rs : Nat)
  /-- `DIVDEC Md, Ma, Mb, DEFAULT` (R145, DS = 1). -/
  | divdecDefault (rd ra rb : MIdx)
  deriving DecidableEq, Repr

/-- The pseudo-command `DMOV Dd, Da` (R71). -/
def Instr.dmov (rd ra : DIdx) : Instr := .dalign rd ra 0 0

/-- The pseudo-command `DPAD Dd, Da, #k` (R71). -/
def Instr.dpad (rd ra : DIdx) (k : Nat) : Instr := .dalign rd ra 0 k

/-- The pseudo-command `DTRUNC Dd, Da, #k` (R71). -/
def Instr.dtrunc (rd ra : DIdx) (k : Nat) : Instr := .dalign rd ra k 0

end Sys2Proof
end

