-- ==== Sys2Proof/WellFormed.lean ====
section
/-! DEFINITION. Which commands the encoding can express (spec/30_encoding.md R64, R70: "An assembler refuses ... an
immediate out of range"). A register of the wrong file or out of range is refused by the types of Instr. -/

namespace Sys2Proof

/-- An immediate fits its 8-bit field (R62, R64). A result scale above 76 is well-formed: the core raises E_SCALE
(R67, R70). -/
def Instr.wf : Instr → Bool
  | .todig _ _ => true
  | .fromdig _ _ => true
  | .dmul _ _ _ => true
  | .ddiv _ _ _ => true
  | .dalign _ _ src tgt => src ≤ 255 && tgt ≤ 255
  | .ovchk _ => true
  | .muldec _ _ _ rs => rs ≤ 255
  | .muldecDefault _ _ _ => true
  | .divdec _ _ _ rs => rs ≤ 255
  | .divdecDefault _ _ _ => true

end Sys2Proof
end

