-- ==== Sys2Proof/Decode.lean ====
section
/-! DEFINITION. The command format C32, the decoder and the encoder (spec/30_encoding.md sections 2 to 4), and the
opcode table of R66 as masks and patterns. -/

namespace Sys2Proof

/-- Why a command word is illegal (R67). All four complete with E_ILLEGAL; the reasons are the model's names
(log entry 11). -/
inductive Illegal where
  /-- OPC is 0x00 or 0x09 to 0x3F (R67, R68). -/
  | reservedOpcode
  /-- RSV is not 0 (R62, R67). -/
  | reservedBits
  /-- A register or immediate field that the form does not use is not 0 (R66, R67). -/
  | unusedField
  /-- DS = 1 in a command other than MULDEC and DIVDEC, or with IMM not 0 (R65, R67). -/
  | defaultSelect
  deriving DecidableEq, Repr

/-- Bits `[lo + n - 1 : lo]` of a word as an unsigned number (R12). -/
def field (w : Word) (lo n : Nat) : Nat := (w.extractLsb' lo n).toNat

/-- OPC, bits 5:0 (R62). -/
def fieldOpc (w : Word) : Nat := field w 0 6

/-- RD, bits 7:6 (R62). -/
def fieldRd (w : Word) : Fin 4 := (w.extractLsb' 6 2).toFin

/-- RA, bits 9:8 (R62). -/
def fieldRa (w : Word) : Fin 4 := (w.extractLsb' 8 2).toFin

/-- RB, bits 11:10 (R62). -/
def fieldRb (w : Word) : Fin 4 := (w.extractLsb' 10 2).toFin

/-- DS, bit 12 (R62, R65). -/
def fieldDs (w : Word) : Nat := field w 12 1

/-- RSV, bits 15:13 (R62). -/
def fieldRsv (w : Word) : Nat := field w 13 3

/-- IMM, bits 23:16 (R62, R64). -/
def fieldImm (w : Word) : Nat := field w 16 8

/-- IMMB, bits 31:24 (R62, R64). -/
def fieldImmb (w : Word) : Nat := field w 24 8

/-- A form without immediates and with DS = 0: `unused` says that its unused register fields are 0 (R66). -/
def decodePlain (w : Word) (unused : Bool) (i : Instr) : Except Illegal Instr :=
  if fieldDs w ≠ 0 then .error .defaultSelect
  else if unused && fieldImm w = 0 && fieldImmb w = 0 then .ok i
  else .error .unusedField

/-- The two forms of a composite command (R65, R66): DS = 0 takes IMM, DS = 1 requires IMM = 0. -/
def decodeComposite (w : Word) (explicit : Nat → Instr) (default : Instr) : Except Illegal Instr :=
  if fieldImmb w ≠ 0 then .error .unusedField
  else if fieldDs w = 0 then .ok (explicit (fieldImm w))
  else if fieldImm w = 0 then .ok default
  else .error .defaultSelect

/-- The decoder: total on 32-bit words, one row of R66 or a named reason (R67). -/
def decode (w : Word) : Except Illegal Instr :=
  if fieldRsv w ≠ 0 then .error .reservedBits
  else match fieldOpc w with
    | 1 => decodePlain w (fieldRb w = 0) (.todig (fieldRd w) (fieldRa w))
    | 2 => decodePlain w (fieldRb w = 0) (.fromdig (fieldRd w) (fieldRa w))
    | 3 => decodePlain w true (.dmul (fieldRd w) (fieldRa w) (fieldRb w))
    | 4 => decodePlain w true (.ddiv (fieldRd w) (fieldRa w) (fieldRb w))
    | 5 =>
      if fieldDs w ≠ 0 then .error .defaultSelect
      else if fieldRb w = 0 then .ok (.dalign (fieldRd w) (fieldRa w) (fieldImmb w) (fieldImm w))
      else .error .unusedField
    | 6 => decodePlain w (fieldRd w = 0 && fieldRb w = 0) (.ovchk (fieldRa w))
    | 7 => decodeComposite w (.muldec (fieldRd w) (fieldRa w) (fieldRb w))
        (.muldecDefault (fieldRd w) (fieldRa w) (fieldRb w))
    | 8 => decodeComposite w (.divdec (fieldRd w) (fieldRa w) (fieldRb w))
        (.divdecDefault (fieldRd w) (fieldRa w) (fieldRb w))
    | _ => .error .reservedOpcode

/-- The C32 word with the given fields (R62); every field but OPC defaults to 0 in the syntax of R70. -/
def wordOf (opc rd ra rb ds imm immb : Nat) : Word :=
  BitVec.ofNat 32 (opc + rd * 2 ^ 6 + ra * 2 ^ 8 + rb * 2 ^ 10 + ds * 2 ^ 12 + imm * 2 ^ 16 + immb * 2 ^ 24)

/-- The encoder: the word each command assembles to (R70). -/
def encode : Instr → Word
  | .todig rd ra => wordOf 1 rd ra 0 0 0 0
  | .fromdig rd ra => wordOf 2 rd ra 0 0 0 0
  | .dmul rd ra rb => wordOf 3 rd ra rb 0 0 0
  | .ddiv rd ra rb => wordOf 4 rd ra rb 0 0 0
  | .dalign rd ra src tgt => wordOf 5 rd ra 0 0 tgt src
  | .ovchk ra => wordOf 6 0 ra 0 0 0 0
  | .muldec rd ra rb rs => wordOf 7 rd ra rb 0 rs 0
  | .muldecDefault rd ra rb => wordOf 7 rd ra rb 1 0 0
  | .divdec rd ra rb rs => wordOf 8 rd ra rb 0 rs 0
  | .divdecDefault rd ra rb => wordOf 8 rd ra rb 1 0 0

/-- The word of a table row: the low `nbits` bits of `w`, every bit above them 0. -/
def tableWord (nbits w : Nat) : Word := BitVec.ofNat 32 (w % 2 ^ nbits)

/-- The instruction the decoder reads from a word numbered as spec/opcode_table.json numbers it. A command is one
32-bit register value (R42: the core defines no bytes inside it), so no byte order enters. -/
def decodeTableWord (nbits w : Nat) : Option Instr := (decode (tableWord nbits w)).toOption

/-- One row of the opcode map of R66. -/
structure Row where
  mnemonic : String
  pattern : Word
  mask : Word
  deriving DecidableEq, Repr

/-- `(w & mask) = match` (R66). -/
def Row.matchesWord (r : Row) (w : Word) : Bool := w &&& r.mask == r.pattern

/-- The opcode map, row by row (R66). -/
def opcodeMap : List Row :=
  [ ⟨"TODIG", 0x00000001#32, 0xFFFFFC3F#32⟩,
    ⟨"FROMDIG", 0x00000002#32, 0xFFFFFC3F#32⟩,
    ⟨"DMUL", 0x00000003#32, 0xFFFFF03F#32⟩,
    ⟨"DDIV", 0x00000004#32, 0xFFFFF03F#32⟩,
    ⟨"DALIGN", 0x00000005#32, 0x0000FC3F#32⟩,
    ⟨"OVCHK", 0x00000006#32, 0xFFFFFCFF#32⟩,
    ⟨"MULDEC", 0x00000007#32, 0xFF00F03F#32⟩,
    ⟨"MULDEC.DEFAULT", 0x00001007#32, 0xFFFFF03F#32⟩,
    ⟨"DIVDEC", 0x00000008#32, 0xFF00F03F#32⟩,
    ⟨"DIVDEC.DEFAULT", 0x00001008#32, 0xFFFFF03F#32⟩ ]

/-- The row of R66 a command stands in, by its mnemonic in spec/opcode_table.json. -/
def Instr.mnemonic : Instr → String
  | .todig _ _ => "TODIG"
  | .fromdig _ _ => "FROMDIG"
  | .dmul _ _ _ => "DMUL"
  | .ddiv _ _ _ => "DDIV"
  | .dalign _ _ _ _ => "DALIGN"
  | .ovchk _ => "OVCHK"
  | .muldec _ _ _ _ => "MULDEC"
  | .muldecDefault _ _ _ => "MULDEC.DEFAULT"
  | .divdec _ _ _ _ => "DIVDEC"
  | .divdecDefault _ _ _ => "DIVDEC.DEFAULT"

end Sys2Proof
end

