-- ==== Sys2Proof/Config.lean ====
section
/-! DEFINITION. The parameters of spec/00_scope.md section 4, the two constant registers, and the free values.
A free value is a constant with no body: nothing in Lean can evaluate it, so a claim about it holds whatever it is. -/

namespace Sys2Proof.Config

/-- The precision ceiling in decimal digits (R7). -/
def pmax : Nat := 76

/-- The largest legal scale (R8). -/
def smax : Nat := 76

/-- The capacity in digits of a digit-sequence register (R10). -/
def dcap : Nat := 256

/-- The greatest value of a magnitude register, 2^256 − 1 (R9, R12). -/
def magMax : Nat := 2 ^ 256 - 1

/-- The size in bytes of the register space (R11, R40). -/
def spaceSize : Nat := 4096

/-- What ID reads (R22). -/
def idValue : Word := 0x44430100#32

/-- What CFG reads (R23). -/
def cfgValue : Word := 0x444C0100#32

/-- FREE VALUE (R48, log entry 4). The value returned by a BUSY-window read of a data register, by draw number. -/
opaque freeWord : Nat → Word

/-- FREE VALUE (R31, R39, log entries 2 and 3). The contents of an unspecified digit cell, by draw number and
position: the cell's index for a sequence write, 256 times the register's index plus the cell's for RST. -/
opaque freeCell : Nat → Nat → Cell

/-- FREE VALUE (R39, R180, log entry 2). The contents of a magnitude register after RST, by draw number and register. -/
opaque freeMag : Nat → Nat → Mag

/-- FREE VALUE (R39, R180, log entry 2). The contents of a LEN field after RST, by draw number and register. -/
opaque freeLen : Nat → Nat → BitVec 9

/-- FREE VALUE (R190, log entry 5). How many further bus cycles a command stays in flight beyond the one cycle it
takes at least, by draw number. It is a natural number, so every command completes. -/
opaque latency : Nat → Nat

end Sys2Proof.Config
end

