-- ==== Sys2Proof/Machine/State.lean ====
section
/-! DEFINITION. The state of the core as plain data (spec/10_state.md R20), the reasons a step can stop, and the state
after reset (R39). -/

namespace Sys2Proof.Machine

/-- Why the model stops a step with a fault. -/
inductive Fault where
  /-- Raised by a host access at an offset outside the 4096-byte register space (R40: byte offsets 0x000 to 0xFFF).
  Safe: the core is not addressed there, and nothing is claimed of it (log entry 7). -/
  | outsideRegisterSpace
  deriving DecidableEq, Repr

/-- Why the model refuses a step. -/
inductive Refusal where
  /-- Raised by an arm of exec for an instruction without a meaning. No arm of this model raises it. Safe. -/
  | notModelled (mnemonic : String)
  /-- Raised by a host access that is not 32 bits wide or not at a multiple of 4 (R41: "this spec gives it no meaning,
  and a model refuses it"). Safe: no claim can be proved from it (log entry 7). -/
  | unsupportedAccess
  deriving DecidableEq, Repr

/-- The error codes a command can complete with (R160). -/
inductive ErrCode where
  /-- 1: the command word matches no row of the opcode map (R161). -/
  | illegal
  /-- 2: SA, SB or an explicit result scale above 76 (R162). -/
  | scale
  /-- 3: a source digit register's LEN above DCAP (R163). -/
  | len
  /-- 4: a source digit cell within LEN above 9 (R164). -/
  | digit
  /-- 5: divisor 0 (R165). -/
  | divzero
  /-- 6: a value above 2^256 − 1 (R166). -/
  | range
  /-- 7: a result sequence longer than DCAP (R167). -/
  | cap
  /-- 8: a result sequence longer than PMAX (R168). -/
  | overflow
  deriving DecidableEq, Repr

/-- A digit-sequence register: 256 digit cells and the LEN field (R29, R30). -/
structure DigitReg where
  cells : Vector Cell 256
  len : BitVec 9
  deriving DecidableEq, Repr

/-- The registers a command can read, as the acceptance snapshot holds them (R37; log entry 8). -/
structure Sources where
  m : Vector Mag 4
  d : Vector DigitReg 4
  scale : Word
  deriving DecidableEq, Repr

/-- The hidden in-flight state (R37). -/
structure InFlight where
  /-- The accepted command word. -/
  word : Word
  /-- The snapshot of the source registers taken at acceptance. -/
  src : Sources
  /-- The scratch digit sequences of a composite command; never visible to the host (log entry 9). -/
  scratch : List DigitSeq
  /-- The model's own field: how many bus cycles still pass before the completion (R190; log entry 5). -/
  wait : Nat
  deriving DecidableEq, Repr

/-- What a command that completes without error writes (R35); each command rule names its destinations. -/
inductive Effect where
  /-- No destination (OVCHK, R94). -/
  | none
  /-- `D[rd] <- q` (R31). -/
  | digits (rd : DIdx) (q : DigitSeq)
  /-- `M[rd] <- v`. -/
  | mag (rd : MIdx) (v : Mag)
  /-- `M[rd] <- v; RSCALE <- rs` (R132). -/
  | decimal (rd : MIdx) (v : Mag) (rs : Nat)
  deriving DecidableEq, Repr

/-- One operation of the host toward the core (R40, R72, R185). The width of an access is in bits. -/
inductive HostOp where
  /-- `RD off`: RegRead of the given width at a byte offset. -/
  | read (width off : Nat)
  /-- `WR off, v`: RegWrite of the given width at a byte offset. -/
  | write (width off : Nat) (v : Word)
  /-- `WAIT`: reads STATUS until a read returns BUSY = 0. -/
  | wait
  /-- `GETD Dk`: reads LENk, then the window words covering cells 0 to LEN − 1. -/
  | getd (k : DIdx)
  /-- RST asserted (R180). -/
  | rst
  /-- A bus cycle in which the host accesses nothing. -/
  | idle
  deriving DecidableEq, Repr

/-- The whole state (R20), the host's side of the bus, and the count of free values drawn.
ID and CFG are the constants of Config; IRQ is derived (R170). -/
structure State where
  /-- M0-M3 (R21). -/
  m : Vector Mag 4
  /-- D0-D3 with LEN0-LEN3 (R29, R30). -/
  d : Vector DigitReg 4
  /-- CTRL (R26). -/
  ctrl : Word
  /-- STATUS (R33). -/
  status : Word
  /-- CMD, the last accepted command word (R28). -/
  cmd : Word
  /-- SCALE (R24). -/
  scale : Word
  /-- RSCALE (R25). -/
  rscale : Word
  /-- The hidden in-flight state, none when no command is in flight (R37, R39). -/
  inFlight : Option InFlight
  /-- The host's pending operations, the next one first (R50; the model's own field, log entry 6). -/
  host : List HostOp
  /-- What the host's reads have returned, the latest first (R40; the model's own field, log entry 6). -/
  responses : List Word
  /-- How many free values have been drawn (the model's own field, log entry 4). -/
  draws : Nat
  deriving DecidableEq, Repr

/-- A digit register at reset: the spec gives no value (R39); DESIGN CHOICE zero, log entry 1. -/
def DigitReg.zero : DigitReg := ⟨Vector.replicate 256 0#4, 0#9⟩

/-- The machine right after reset (R39). M, D and LEN are unspecified there: DESIGN CHOICE zero, log entry 1. -/
def State.reset : State where
  m := Vector.replicate 4 0#256
  d := Vector.replicate 4 DigitReg.zero
  ctrl := 0x00000000#32
  status := 0x00000000#32
  cmd := 0x00000000#32
  scale := 0x00000000#32
  rscale := 0x00000000#32
  inFlight := none
  host := []
  responses := []
  draws := 0

end Sys2Proof.Machine
end

