-- ==== Sys2Proof/Machine/Flags.lean ====
section
/-! DEFINITION. The fields of STATUS and CTRL and every update the spec makes to STATUS
(spec/10_state.md R26, R33 to R36; spec/60_exceptions.md R160, R170). The core has no other flags (R38). -/

namespace Sys2Proof.Machine

/-- The word `v` with bit `i` set to `b`. -/
def setBit (i : Nat) (b : Bool) (v : Word) : Word :=
  if b then v ||| 1#32 <<< i else v &&& ~~~(1#32 <<< i)

/-- The word `v` with its low `n` bits kept and every other bit 0: how a write to a register whose other bits are
reserved is stored (R24, R26). -/
def keepLow (n : Nat) (v : Word) : Word := v &&& (1#32 <<< n - 1#32)

/-- STATUS.BUSY, bit 0 (R33). -/
def busyBit (st : Word) : Bool := st.getLsbD 0

/-- STATUS.DONE, bit 1 (R33). -/
def doneBit (st : Word) : Bool := st.getLsbD 1

/-- STATUS.ERR, bit 2 (R33). -/
def errBit (st : Word) : Bool := st.getLsbD 2

/-- STATUS.WBUSY, bit 3 (R33). -/
def wbusyBit (st : Word) : Bool := st.getLsbD 3

/-- STATUS.ECODE, bits 11:8 (R33). -/
def ecodeField (st : Word) : BitVec 4 := st.extractLsb' 8 4

/-- CTRL.IE, bit 0 (R26). -/
def ieBit (ctrl : Word) : Bool := ctrl.getLsbD 0

/-- STATUS with ECODE replaced. -/
def setEcode (e : BitVec 4) (st : Word) : Word := (st &&& ~~~0xF00#32) ||| (e.setWidth 32 <<< 8)

/-- The number of an error code (R160). -/
def ErrCode.code : ErrCode → BitVec 4
  | .illegal => 1#4
  | .scale => 2#4
  | .len => 3#4
  | .digit => 4#4
  | .divzero => 5#4
  | .range => 6#4
  | .cap => 7#4
  | .overflow => 8#4

/-- STATUS when a command is accepted: BUSY <- 1, DONE <- 0, ERR <- 0, ECODE <- 0 (R34). -/
def statusAccept (st : Word) : Word := setEcode 0#4 (setBit 2 false (setBit 1 false (setBit 0 true st)))

/-- STATUS when a command completes without error: BUSY <- 0, DONE <- 1; ERR and ECODE stay (R35; log entry 10). -/
def statusDone (st : Word) : Word := setBit 1 true (setBit 0 false st)

/-- STATUS when a command completes with error e: BUSY <- 0, DONE <- 1, ERR <- 1, ECODE <- e (R35). -/
def statusError (e : ErrCode) (st : Word) : Word := setEcode e.code (setBit 2 true (statusDone st))

/-- STATUS after a host write of `v`: DONE, ERR and WBUSY are cleared where `v` has a 1 (R36). -/
def statusWrite (v st : Word) : Word :=
  st &&& ~~~(v &&& 0x0000000E#32)

/-- STATUS after a host write was ignored because BUSY = 1: WBUSY <- 1 (R33, R49). -/
def statusLost (st : Word) : Word := setBit 3 true st

/-- The interrupt output: `IRQ = CTRL.IE AND STATUS.DONE` (R170). -/
def State.irq (s : State) : Bool := ieBit s.ctrl && doneBit s.status

end Sys2Proof.Machine
end

