-- ==== Sys2Proof/Machine/Digits.lean ====
section
/-! DEFINITION. The arithmetic of digit sequences: spec/00_scope.md R14 to R16 and the loops of
spec/40_digit_conversion.md R81, R83. -/

namespace Sys2Proof.Machine

/-- Every element is a digit 0 to 9 (R14). -/
def allDigits (s : DigitSeq) : Bool := s.all (· ≤ 9)

/-- `[0]`, or a nonempty sequence whose first digit is not 0 (R14). -/
def canonical : DigitSeq → Bool
  | [] => false
  | [_] => true
  | x :: _ :: _ => x ≠ 0

/-- `value(s) = Σ s_i · 10^(n−1−i)` (R15). -/
def value : DigitSeq → Nat
  | [] => 0
  | x :: xs => x * 10 ^ xs.length + value xs

/-- The loop of R81: the digits of x, least significant first, none for 0. The first argument bounds the number of
rounds; x rounds always suffice. -/
def digitLoop : Nat → Nat → DigitSeq
  | 0, _ => []
  | fuel + 1, x => if x = 0 then [] else x % 10 :: digitLoop fuel (x / 10)

/-- `digitsOf(x)`, the canonical sequence of value x (R16), by the procedure of R81. -/
def digitsOf (x : Nat) : DigitSeq := if x = 0 then [0] else (digitLoop x x).reverse

/-- `digitlen(x) = len(digitsOf(x))` (R16). -/
def digitlen (x : Nat) : Nat := (digitsOf x).length

/-- `zeros(k)` (R16). -/
def zeros (k : Nat) : DigitSeq := List.replicate k 0

/-- `strip(s)`: without its leading zeros, `[0]` if nothing is left (R16). -/
def strip (s : DigitSeq) : DigitSeq :=
  match s.dropWhile (· = 0) with
  | [] => [0]
  | x :: xs => x :: xs

/-- The loop of R83, over the digits least significant first: accumulated value `v`, multiplier `m`. -/
def weightedSum : DigitSeq → Nat → Nat → Nat
  | [], v, _ => v
  | x :: xs, v, m => weightedSum xs (v + x * m) (m * 10)

/-- `fromDigits` as the source describes it (R83). -/
def fromDigits (s : DigitSeq) : Nat := weightedSum s.reverse 0 1

end Sys2Proof.Machine
end

