-- ==== Sys2Proof/Machine/Operands.lean ====
section
/-! DEFINITION. How a command reads its operands (spec/00_scope.md R12, R13; spec/10_state.md R21, R24, R32, R37;
spec/44_transforms.md R130 to R133). -/

namespace Sys2Proof.Machine

/-- `uval256(x)` (R12). -/
def uval256 (x : Mag) : Nat := x.toNat

/-- `sval256(x)` (R12). -/
def sval256 (x : Mag) : Int := x.toInt

/-- `twos256(n)` (R12). -/
def twos256 (n : Int) : Mag := BitVec.ofInt 256 n

/-- `zext_256(v)` (R12). -/
def zext256 (v : Nat) : Mag := BitVec.ofNat 256 v

/-- The source registers as they stand (R37). -/
def State.snapshot (s : State) : Sources := ⟨s.m, s.d, s.scale⟩

/-- What a command reads: the acceptance snapshot of the command in flight (R37, R61), and the registers as they stand
where none is in flight (log entry 10; no step runs a command there). -/
def State.sources (s : State) : Sources :=
  match s.inFlight with
  | some f => f.src
  | none => s.snapshot

/-- The digit cells 0 to LEN − 1 of a digit register as numbers (R29, R30). -/
def DigitReg.held (r : DigitReg) : DigitSeq := (r.cells.toList.take r.len.toNat).map BitVec.toNat

/-- Reading `D[k]` as a source sequence: E_LEN, then E_DIGIT, else the sequence (R32). -/
def DigitReg.read (r : DigitReg) : Except ErrCode DigitSeq :=
  if r.len.toNat > Config.dcap then .error .len
  else if r.held.any (· > 9) then .error .digit
  else .ok r.held

/-- SA, the scale of operand A (R24). -/
def scaleA (scale : Word) : Nat := (scale.extractLsb' 0 8).toNat

/-- SB, the scale of operand B (R24). -/
def scaleB (scale : Word) : Nat := (scale.extractLsb' 8 8).toNat

/-- The operands of a composite command (R130). -/
structure Operands where
  a : Int
  b : Int
  sA : Nat
  sB : Nat
  deriving DecidableEq, Repr

/-- Operand read of a composite command (R130). -/
def Sources.operands (src : Sources) (ra rb : MIdx) : Operands :=
  ⟨sval256 src.m[ra], sval256 src.m[rb], scaleA src.scale, scaleB src.scale⟩

/-- The scale check and the result scale (R131, R132): `explicit` is IMM when DS = 0, none when DS = 1. -/
def Operands.resultScale (o : Operands) (explicit : Option Nat) : Except ErrCode Nat :=
  if o.sA > Config.smax then .error .scale
  else if o.sB > Config.smax then .error .scale
  else match explicit with
    | some imm => if imm > Config.smax then .error .scale else .ok imm
    | none => .ok (max o.sA o.sB)

/-- `sign = sgn(a) · sgn(b)` (R133). -/
def Operands.sign (o : Operands) : Int := o.a.sign * o.b.sign

end Sys2Proof.Machine
end

