-- ==== Sys2Proof/Machine/Ops.lean ====
section
/-! DEFINITION. The shared operations of the engine: writing a destination, and the completion of a command, without
error and with one (spec/10_state.md R31, R35; spec/60_exceptions.md R160, R172). The core has no trap entry and no trap
return (R172, R173): an error IS a completion. -/

namespace Sys2Proof.Machine

/-- `M[k] <- v` (R13). -/
def State.writeMag (s : State) (k : MIdx) (v : Mag) : State := { s with m := s.m.set k v }

/-- The digit register that holds the sequence q: LEN and cells 0 to len(q) − 1 as R31 says, every later cell a free
value of the given draw (log entry 3). -/
def DigitReg.ofSeq (q : DigitSeq) (draw : Nat) : DigitReg where
  cells := Vector.ofFn fun i =>
    if i.val < q.length then BitVec.ofNat 4 (q.getD i.val 0) else Config.freeCell draw i.val
  len := BitVec.ofNat 9 q.length

/-- `D[k] <- q` (R31). -/
def State.writeSeq (s : State) (k : DIdx) (q : DigitSeq) : State :=
  { s with d := s.d.set k (DigitReg.ofSeq q s.draws), draws := s.draws + 1 }

/-- `RSCALE <- rs`: bits [7:0] hold it, the rest read as zero (R25, R132). -/
def State.writeRscale (s : State) (rs : Nat) : State := { s with rscale := keepLow 8 (BitVec.ofNat 32 rs) }

/-- The destination writes of a command that completes without error (R35). -/
def State.apply (s : State) : Effect → State
  | .none => s
  | .digits rd q => s.writeSeq rd q
  | .mag rd v => s.writeMag rd v
  | .decimal rd v rs => (s.writeMag rd v).writeRscale rs

/-- Completion without error: destination writes and the STATUS update, one event; the in-flight state is discarded
(R35, R37). -/
def State.completeOk (s : State) (e : Effect) : State :=
  { s.apply e with status := statusDone s.status, inFlight := none }

/-- Completion with an error: the STATUS update and nothing else (R35, R160, R172). -/
def State.completeError (s : State) (e : ErrCode) : State :=
  { s with status := statusError e s.status, inFlight := none }

/-- The completion event of a command whose computation gave `r` (R35). -/
def State.complete (s : State) : Except ErrCode Effect → State
  | .ok e => s.completeOk e
  | .error e => s.completeError e

/-- The completion event as the outcome of exec: every command completes (R160), so there is always a next state. -/
def finish (s : State) (r : Except ErrCode Effect) : Host.Outcome State Fault Refusal := .next (s.complete r)

end Sys2Proof.Machine
end

