-- ==== Sys2Proof/Machine/Conversion.lean ====
section
/-! DEFINITION. The Digit Conversion unit: TODIG and FROMDIG (spec/40_digit_conversion.md). -/

namespace Sys2Proof.Machine

/-- What TODIG computes (R80). -/
def todigResult (src : Sources) (rd : DIdx) (ra : MIdx) : Except ErrCode Effect :=
  .ok (.digits rd (digitsOf (uval256 src.m[ra])))

/-- TODIG (R80). -/
def execTodig (rd : DIdx) (ra : MIdx) (s : State) : Host.Outcome State Fault Refusal :=
  finish s (todigResult s.sources rd ra)

/-- What FROMDIG computes (R82): the range check is on the exact value (R83). -/
def fromdigResult (src : Sources) (rd : MIdx) (ra : DIdx) : Except ErrCode Effect := do
  let q ← src.d[ra].read
  if value q > Config.magMax then .error .range
  else .ok (.mag rd (zext256 (value q)))

/-- FROMDIG (R82). -/
def execFromdig (rd : MIdx) (ra : DIdx) (s : State) : Host.Outcome State Fault Refusal :=
  finish s (fromdigResult s.sources rd ra)

end Sys2Proof.Machine
end

