-- ==== Sys2Proof/Machine/Align.lean ====
section
/-! DEFINITION. The Scale Aligner and the Overflow Guard: DALIGN and OVCHK (spec/41_scale_align.md). -/

namespace Sys2Proof.Machine

/-- `align(s, from, to)` (R90): pads with trailing zeros, or removes trailing digits without rounding. -/
def align (s : DigitSeq) (src tgt : Nat) : DigitSeq :=
  if tgt > src then s ++ zeros (tgt - src)
  else if tgt < src then
    if src - tgt ≥ s.length then [0] else s.take (s.length - (src - tgt))
  else s

/-- `padDiv(sA, sB, rs)`: how many zeros the divide path appends (R93). -/
def padDiv (sA sB rs : Nat) : Nat := max 0 (sB - sA) + rs

/-- The Overflow Guard's predicate: the length of the sequence as held (R95). -/
def overflows (s : DigitSeq) : Bool := s.length > Config.pmax

/-- What DALIGN computes (R91). -/
def dalignResult (src : Sources) (rd ra : DIdx) (srcScale tgtScale : Nat) : Except ErrCode Effect := do
  let q ← src.d[ra].read
  let r := align q srcScale tgtScale
  if r.length > Config.dcap then .error .cap
  else .ok (.digits rd r)

/-- DALIGN (R91). -/
def execDalign (rd ra : DIdx) (src tgt : Nat) (s : State) : Host.Outcome State Fault Refusal :=
  finish s (dalignResult s.sources rd ra src tgt)

/-- What OVCHK computes (R94). -/
def ovchkResult (src : Sources) (ra : DIdx) : Except ErrCode Effect := do
  let q ← src.d[ra].read
  if overflows q then .error .overflow
  else .ok .none

/-- OVCHK (R94). -/
def execOvchk (ra : DIdx) (s : State) : Host.Outcome State Fault Refusal :=
  finish s (ovchkResult s.sources ra)

end Sys2Proof.Machine
end

