-- ==== Sys2Proof/Machine/Divide.lean ====
section
/-! DEFINITION. The BigNumber Divide Kernel: DDIV (spec/43_divide_kernel.md). -/

namespace Sys2Proof.Machine

/-- `check(r)`: E_RANGE when r exceeds 2^256 − 1 (R110). -/
def checkRange (r : Nat) : Except ErrCode Nat :=
  if r > Config.magMax then .error .range else .ok r

/-- The seed loop of R110: takes digits while r < d; answers r and the digits not yet taken. -/
def divSeed (d : Nat) : DigitSeq → Nat → Except ErrCode (Nat × DigitSeq)
  | [], r => .ok (r, [])
  | x :: xs, r =>
    if r < d then do
      let r' ← checkRange (r * 10 + x)
      divSeed d xs r'
    else .ok (r, x :: xs)

/-- The emit loop of R110 with its final emission (R111). -/
def divEmit (d : Nat) : DigitSeq → Nat → Except ErrCode DigitSeq
  | [], r => .ok [r / d]
  | x :: xs, r => do
    let r' ← checkRange (r % d * 10 + x)
    let q ← divEmit d xs r'
    .ok (r / d :: q)

/-- `divide(N, d)` (R110). -/
def divide (n : DigitSeq) (d : Nat) : Except ErrCode DigitSeq := do
  let (r, rest) ← divSeed d n 0
  let q ← divEmit d rest r
  .ok (if q = [] then [0] else q)

/-- What DDIV computes (R112): the source is read before the divisor is checked. -/
def ddivResult (src : Sources) (rd ra : DIdx) (rb : MIdx) : Except ErrCode Effect := do
  let n ← src.d[ra].read
  let d := uval256 src.m[rb]
  if d = 0 then .error .divzero
  else do
    let q ← divide n d
    .ok (.digits rd q)

/-- DDIV (R112). -/
def execDdiv (rd ra : DIdx) (rb : MIdx) (s : State) : Host.Outcome State Fault Refusal :=
  finish s (ddivResult s.sources rd ra rb)

end Sys2Proof.Machine
end

