-- ==== Sys2Proof/Machine/Multiply.lean ====
section
/-! DEFINITION. The BigNumber Multiply Kernel: DMUL (spec/42_multiply_kernel.md). -/

namespace Sys2Proof.Machine

/-- `multiply(A, B)`: the exact product without leading zeros; an empty operand yields `[0]` (R100). -/
def multiply (a b : DigitSeq) : DigitSeq :=
  if a.length = 0 ∨ b.length = 0 then [0] else digitsOf (value a * value b)

/-- The inner loop of R102 for one digit x of A: B and the row R_{i+1} .. R_{i+m}, both from their last digit on, and
the carry; it answers the new row, last digit first, and the final carry. -/
def mulRow (x : Nat) : DigitSeq → DigitSeq → Nat → DigitSeq × Nat
  | y :: ys, r :: rs, carry =>
    let t := r + x * y + carry
    let rest := mulRow x ys rs (t / 10)
    (t % 10 :: rest.1, rest.2)
  | _, rs, carry => (rs, carry)

/-- The outer loop of R102 over A from its last digit on: `r` is R from its last digit on, as far as this digit of A
reaches it: m digits for the row, then R_i. The last digit of `r` is final after each round. -/
def mulRows (b : DigitSeq) : DigitSeq → DigitSeq → DigitSeq
  | [], r => r
  | x :: xs, r =>
    let m := b.length
    let row := mulRow x b (r.take m) 0
    match row.1 ++ ((r.getD m 0 + row.2) :: r.drop (m + 1)) with
    | [] => []
    | last :: rest => last :: mulRows b xs rest

/-- The schoolbook procedure of R102, a reference for `multiply` on nonempty sequences. -/
def schoolbook (a b : DigitSeq) : DigitSeq :=
  strip (mulRows b.reverse a.reverse (zeros (a.length + b.length))).reverse

/-- What DMUL computes (R101): A is read before B. -/
def dmulResult (src : Sources) (rd ra rb : DIdx) : Except ErrCode Effect := do
  let a ← src.d[ra].read
  let b ← src.d[rb].read
  let p := multiply a b
  if p.length > Config.dcap then .error .cap
  else .ok (.digits rd p)

/-- DMUL (R101). -/
def execDmul (rd ra rb : DIdx) (s : State) : Host.Outcome State Fault Refusal :=
  finish s (dmulResult s.sources rd ra rb)

end Sys2Proof.Machine
end

