-- ==== Sys2Proof/Machine/Transforms.lean ====
section
/-! DEFINITION. The Multiply and Divide Transforms: MULDEC and DIVDEC with an explicit and with the default result scale
(spec/44_transforms.md). -/

namespace Sys2Proof.Machine

/-- Reassembly: `twos256(sign · value(q))` (R134). -/
def Operands.reassemble (o : Operands) (q : DigitSeq) : Mag := twos256 (o.sign * (value q : Int))

/-- The scratch sequences of the Multiply Transform, steps 2 to 4 of R140. -/
structure MulScratch where
  dA : DigitSeq
  dB : DigitSeq
  p : DigitSeq
  p2 : DigitSeq
  deriving DecidableEq, Repr

/-- Steps 2 to 4 of R140: digits of |a| and |b|, their product, its alignment to the result scale. -/
def mulScratch (o : Operands) (rs : Nat) : MulScratch :=
  let dA := digitsOf o.a.natAbs
  let dB := digitsOf o.b.natAbs
  let p := multiply dA dB
  ⟨dA, dB, p, align p (o.sA + o.sB) rs⟩

/-- The Multiply Transform (R140); `explicit` is IMM when DS = 0, none when DS = 1. -/
def muldecResult (src : Sources) (rd ra rb : MIdx) (explicit : Option Nat) : Except ErrCode Effect := do
  let o := src.operands ra rb
  let rs ← o.resultScale explicit
  let p2 := (mulScratch o rs).p2
  if overflows p2 then .error .overflow
  else .ok (.decimal rd (o.reassemble p2) rs)

/-- MULDEC with an explicit result scale (R140, form C32-MMMI). -/
def execMuldec (rd ra rb : MIdx) (rs : Nat) (s : State) : Host.Outcome State Fault Refusal :=
  finish s (muldecResult s.sources rd ra rb (some rs))

/-- MULDEC with the default result scale (R140, form C32-MMMD). -/
def execMuldecDefault (rd ra rb : MIdx) (s : State) : Host.Outcome State Fault Refusal :=
  finish s (muldecResult s.sources rd ra rb none)

/-- The padded numerator of the Divide Transform, step 2 of R145. -/
def divNumerator (o : Operands) (rs : Nat) : DigitSeq :=
  align (digitsOf o.a.natAbs) 0 (padDiv o.sA o.sB rs)

/-- The Divide Transform (R145); `explicit` is IMM when DS = 0, none when DS = 1. -/
def divdecResult (src : Sources) (rd ra rb : MIdx) (explicit : Option Nat) : Except ErrCode Effect := do
  let o := src.operands ra rb
  let rs ← o.resultScale explicit
  if o.b = 0 then .error .divzero
  else do
    let q ← divide (divNumerator o rs) o.b.natAbs
    if overflows q then .error .overflow
    else .ok (.decimal rd (o.reassemble q) rs)

/-- DIVDEC with an explicit result scale (R145, form C32-MMMI). -/
def execDivdec (rd ra rb : MIdx) (rs : Nat) (s : State) : Host.Outcome State Fault Refusal :=
  finish s (divdecResult s.sources rd ra rb (some rs))

/-- DIVDEC with the default result scale (R145, form C32-MMMD). -/
def execDivdecDefault (rd ra rb : MIdx) (s : State) : Host.Outcome State Fault Refusal :=
  finish s (divdecResult s.sources rd ra rb none)

/-- The scratch sequences MULDEC builds from its operands, none where the scale check fails (R37, R131, R140). -/
def mulScratchList (o : Operands) (explicit : Option Nat) : List DigitSeq :=
  match o.resultScale explicit with
  | .error _ => []
  | .ok rs => let t := mulScratch o rs; [t.dA, t.dB, t.p, t.p2]

/-- The scratch sequences DIVDEC builds from its operands, as far as its steps reach (R37, R131, R145). -/
def divScratchList (o : Operands) (explicit : Option Nat) : List DigitSeq :=
  match o.resultScale explicit with
  | .error _ => []
  | .ok rs =>
    if o.b = 0 then []
    else digitsOf o.a.natAbs :: divNumerator o rs :: (divide (divNumerator o rs) o.b.natAbs).toOption.toList

end Sys2Proof.Machine
end

