-- ==== Sys2Proof/Machine/Dispatch.lean ====
section
/-! DEFINITION. exec: the completion event of a command (spec/30_encoding.md R60, R61), one arm per constructor. -/

namespace Sys2Proof.Machine

def exec (i : Instr) (s : State) : Host.Outcome State Fault Refusal :=
  match i with
  | .todig rd ra => Sys2Proof.Machine.execTodig rd ra s
  | .fromdig rd ra => Sys2Proof.Machine.execFromdig rd ra s
  | .dmul rd ra rb => Sys2Proof.Machine.execDmul rd ra rb s
  | .ddiv rd ra rb => Sys2Proof.Machine.execDdiv rd ra rb s
  | .dalign rd ra src tgt => Sys2Proof.Machine.execDalign rd ra src tgt s
  | .ovchk ra => Sys2Proof.Machine.execOvchk ra s
  | .muldec rd ra rb rs => Sys2Proof.Machine.execMuldec rd ra rb rs s
  | .muldecDefault rd ra rb => Sys2Proof.Machine.execMuldecDefault rd ra rb s
  | .divdec rd ra rb rs => Sys2Proof.Machine.execDivdec rd ra rb rs s
  | .divdecDefault rd ra rb => Sys2Proof.Machine.execDivdecDefault rd ra rb s

end Sys2Proof.Machine
end

