-- ==== Sys2Proof/Machine/Engine.lean ====
section
/-! DEFINITION. The command engine: acceptance of a command word, its completion event, and RST
(spec/10_state.md R28, R34, R37; spec/30_encoding.md R61, R67; spec/70_reset_and_hazards.md R180). -/

namespace Sys2Proof.Machine

/-- The scratch sequences of a command word's run from the given sources: none but for a composite command
(R37; log entry 9). -/
def scratchOf (w : Word) (src : Sources) : List DigitSeq :=
  match decode w with
  | .ok (.muldec _ ra rb rs) => mulScratchList (src.operands ra rb) (some rs)
  | .ok (.muldecDefault _ ra rb) => mulScratchList (src.operands ra rb) none
  | .ok (.divdec _ ra rb rs) => divScratchList (src.operands ra rb) (some rs)
  | .ok (.divdecDefault _ ra rb) => divScratchList (src.operands ra rb) none
  | _ => []

/-- What is in flight right after the word `w` is accepted with `wait` further cycles to pass (R37). -/
def State.flight (s : State) (w : Word) (wait : Nat) : InFlight :=
  ⟨w, s.snapshot, scratchOf w s.snapshot, wait⟩

/-- Acceptance of the command word `w`: CMD <- w, the STATUS update of R34, the snapshot of the sources (R28, R37, R61).
Every word is accepted, illegal ones too. -/
def State.accept (s : State) (w : Word) (wait : Nat) : State :=
  { s with cmd := w, status := statusAccept s.status, inFlight := some (s.flight w wait) }

/-- Acceptance with the latency the machine draws (R190; log entry 5). -/
def State.acceptDrawn (s : State) (w : Word) : State :=
  { s.accept w (Config.latency s.draws) with draws := s.draws + 1 }

/-- The completion event of the command in flight: the meaning of the command its word encodes, or E_ILLEGAL (R61, R67,
R161). -/
def engineComplete (f : InFlight) (s : State) : Host.Outcome State Fault Refusal :=
  match decode f.word with
  | .ok i => exec i s
  | .error _ => .next (s.completeError .illegal)

/-- One bus cycle less to wait for the command in flight. -/
def State.tick (s : State) (f : InFlight) (wait : Nat) : State := { s with inFlight := some { f with wait := wait } }

/-- A digit register after RST in a run: unspecified (R180; log entry 2). -/
def DigitReg.unspecified (draw : Nat) (k : DIdx) : DigitReg where
  cells := Vector.ofFn fun i => Config.freeCell draw (256 * k.val + i.val)
  len := Config.freeLen draw k.val

/-- RST asserted in a run: the command in flight is abandoned without writing its destinations, the control registers
take the values of R39, the data registers are unspecified (R180; log entry 2). The host's side stays. -/
def State.assertRst (s : State) : State :=
  { State.reset with
    m := Vector.ofFn fun k => Config.freeMag s.draws k.val
    d := Vector.ofFn fun k => DigitReg.unspecified s.draws k
    host := s.host
    responses := s.responses
    draws := s.draws + 1 }

end Sys2Proof.Machine
end

