-- ==== Sys2Proof/Machine/Bus.lean ====
section
/-! DEFINITION. The register space: the address map and what one host access does (spec/20_memory.md R40 to R49,
spec/10_state.md R22 to R36). -/

namespace Sys2Proof.Machine

/-- A register of the address map (R44). -/
inductive Reg where
  | id
  | ctrl
  | status
  | cmd
  | scale
  | rscale
  | cfg
  /-- LENk. -/
  | len (k : DIdx)
  /-- Word w of Mk. -/
  | mag (k : MIdx) (w : Fin 8)
  /-- Word w of the digit window of Dk. -/
  | window (k : DIdx) (w : Fin 32)
  /-- A reserved offset (R46). -/
  | reserved
  deriving DecidableEq, Repr

/-- The offset of a register (R44); the first reserved offset stands for a reserved one. -/
def Reg.offset : Reg → Nat
  | .id => 0x000
  | .ctrl => 0x004
  | .status => 0x008
  | .cmd => 0x00C
  | .scale => 0x010
  | .rscale => 0x014
  | .cfg => 0x018
  | .len k => 0x020 + 4 * k.val
  | .mag k w => 0x100 + 0x20 * k.val + 4 * w.val
  | .window k w => 0x400 + 0x80 * k.val + 4 * w.val
  | .reserved => 0x01C

/-- The register at an offset that is a multiple of 4 (R44, R46). -/
def regAt (off : Nat) : Reg :=
  if off = 0x000 then .id
  else if off = 0x004 then .ctrl
  else if off = 0x008 then .status
  else if off = 0x00C then .cmd
  else if off = 0x010 then .scale
  else if off = 0x014 then .rscale
  else if off = 0x018 then .cfg
  else if 0x020 ≤ off ∧ off < 0x030 then .len (Fin.ofNat 4 ((off - 0x020) / 4))
  else if 0x100 ≤ off ∧ off < 0x180 then .mag (Fin.ofNat 4 ((off - 0x100) / 0x20)) (Fin.ofNat 8 ((off - 0x100) / 4))
  else if 0x400 ≤ off ∧ off < 0x600 then .window (Fin.ofNat 4 ((off - 0x400) / 0x80)) (Fin.ofNat 32 ((off - 0x400) / 4))
  else .reserved

/-- Word w of a magnitude register: bits [32w + 31 : 32w] (R42). -/
def magWord (v : Mag) (w : Fin 8) : Word := v.extractLsb' (32 * w.val) 32

/-- A magnitude register with word w replaced (R42). -/
def setMagWord (v : Mag) (w : Fin 8) (x : Word) : Mag :=
  (v &&& ~~~(0xFFFFFFFF#256 <<< (32 * w.val))) ||| (x.setWidth 256 <<< (32 * w.val))

/-- Window word w: cell 8w + j is bits [4j + 3 : 4j], j = 0..7 (R45). -/
def windowWord (cells : Vector Cell 256) (w : Fin 32) : Word :=
  (cells[8 * w.val + 7] ++ cells[8 * w.val + 6] ++ cells[8 * w.val + 5] ++ cells[8 * w.val + 4] ++
    cells[8 * w.val + 3] ++ cells[8 * w.val + 2] ++ cells[8 * w.val + 1] ++ cells[8 * w.val] : BitVec (4 + 4 + 4 + 4 + 4 + 4 + 4 + 4))

/-- The digit cells with window word w written: all eight cells from the value (R45). -/
def setWindowWord (cells : Vector Cell 256) (w : Fin 32) (x : Word) : Vector Cell 256 :=
  Vector.ofFn fun i => if i.val / 8 = w.val then x.extractLsb' (4 * (i.val % 8)) 4 else cells[i]

/-- What a register holds, as a 32-bit read shows it outside the BUSY window (R22 to R30, R33, R42, R44 to R46). -/
def State.readReg (s : State) : Reg → Word
  | .id => Config.idValue
  | .ctrl => s.ctrl
  | .status => s.status
  | .cmd => s.cmd
  | .scale => s.scale
  | .rscale => s.rscale
  | .cfg => Config.cfgValue
  | .len k => s.d[k].len.setWidth 32
  | .mag k w => magWord s.m[k] w
  | .window k w => windowWord s.d[k].cells w
  | .reserved => 0x00000000#32

/-- The registers whose read is unspecified while BUSY = 1 (R48). -/
def Reg.isData : Reg → Bool
  | .len _ | .mag _ _ | .window _ _ | .rscale => true
  | .id | .ctrl | .status | .cmd | .scale | .cfg | .reserved => false

/-- The registers whose write is ignored and sets WBUSY while BUSY = 1 (R49). -/
def Reg.isGuarded : Reg → Bool
  | .cmd | .scale | .len _ | .mag _ _ | .window _ _ => true
  | .id | .ctrl | .status | .rscale | .cfg | .reserved => false

/-- A host read: the value returned, and the state, in which only the count of draws can differ (R47, R48). -/
def State.busRead (s : State) (r : Reg) : Word × State :=
  if busyBit s.status && r.isData then (Config.freeWord s.draws, { s with draws := s.draws + 1 })
  else (s.readReg r, s)

/-- A host write that is not ignored for BUSY (R22 to R30, R36, R42, R45, R46). -/
def State.writeReg (s : State) (r : Reg) (v : Word) : State :=
  match r with
  | .id => s
  | .ctrl => { s with ctrl := keepLow 1 v }
  | .status => { s with status := statusWrite v s.status }
  | .cmd => s.acceptDrawn v
  | .scale => { s with scale := keepLow 16 v }
  | .rscale => s
  | .cfg => s
  | .len k => { s with d := s.d.set k { s.d[k] with len := v.setWidth 9 } }
  | .mag k w => { s with m := s.m.set k (setMagWord s.m[k] w v) }
  | .window k w => { s with d := s.d.set k { s.d[k] with cells := setWindowWord s.d[k].cells w v } }
  | .reserved => s

/-- A host write (R49): ignored with WBUSY <- 1 for the guarded registers while BUSY = 1. -/
def State.busWrite (s : State) (r : Reg) (v : Word) : State :=
  if busyBit s.status && r.isGuarded then { s with status := statusLost s.status }
  else s.writeReg r v

/-- Whether the interface has an access of this width at this offset (R40, R41): refused, faulted, or the register. -/
def accessReg (width off : Nat) (k : Reg → Host.Outcome State Fault Refusal) : Host.Outcome State Fault Refusal :=
  if width ≠ 32 ∨ off % 4 ≠ 0 then .refused .unsupportedAccess
  else if off ≥ Config.spaceSize then .fault .outsideRegisterSpace
  else k (regAt off)

/-- Records a value a host read returned. -/
def State.respond (s : State) (v : Word) : State := { s with responses := v :: s.responses }

/-- The host reads register `r` and keeps the value. -/
def State.hostRead (s : State) (r : Reg) : State := (s.busRead r).2.respond (s.busRead r).1

end Sys2Proof.Machine
end

