-- ==== Sys2Proof/Machine/HostOps.lean ====
section
/-! DEFINITION. The host's side of the bus: what the next pending operation does, and the host operations of
spec/30_encoding.md R72 as lists of accesses (R72 is a notation, not commands of the core). -/

namespace Sys2Proof.Machine

/-- `WR off, v` (R72): one 32-bit RegWrite. -/
def opWr (r : Reg) (v : Word) : HostOp := .write 32 r.offset v

/-- `RD off` (R72): one 32-bit RegRead. -/
def opRd (r : Reg) : HostOp := .read 32 r.offset

/-- `ISSUE <command>` (R72). -/
def opIssue (i : Instr) : HostOp := opWr .cmd (encode i)

/-- `LDM Mk, n` (R72): eight writes, words 0 to 7. -/
def opsLdm (k : MIdx) (n : Mag) : List HostOp := (List.finRange 8).map fun w => opWr (.mag k w) (magWord n w)

/-- The window words 0 .. n − 1, where n words cover `len` cells; all 32 where `len` exceeds the 256 cells there are
(DESIGN CHOICE: log entry 6 for GETD, log entry 14 for LDD). -/
def windowsCovering (len : Nat) : List (Fin 32) := (List.finRange 32).take ((len + 7) / 8)

/-- The value of a window word that covers the cells of `q` from index 8w on, later cells 0 (R72). An element above 15
is written by its low four bits (DESIGN CHOICE, log entry 14). -/
def packCells (q : DigitSeq) (w : Fin 32) : Word :=
  windowWord (Vector.ofFn fun i => BitVec.ofNat 4 (q.getD i.val 0)) w

/-- `LDD Dk, [s_0, ...]` (R72). DESIGN CHOICE, log entry 14: a sequence of more than 256 digits, more than there are cells,
writes LENk and the 32 window words there are. -/
def opsLdd (k : DIdx) (q : DigitSeq) : List HostOp :=
  opWr (.len k) (BitVec.ofNat 32 q.length) ::
    (windowsCovering q.length).map fun w => opWr (.window k w) (packCells q w)

/-- `GETM Mk` (R72): eight reads. -/
def opsGetm (k : MIdx) : List HostOp := (List.finRange 8).map fun w => opRd (.mag k w)

/-- The reads that `GETD Dk` makes after LENk has returned `len` (R72; at most the 32 words there are, log entry 6). -/
def opsWindows (k : DIdx) (len : Word) : List HostOp :=
  (windowsCovering (len.setWidth 9).toNat).map fun w => opRd (.window k w)

/-- What the host's next operation does to `s`, the state in which it is no longer pending (R40, R47 to R50, R72,
R180). -/
def hostEvent (op : HostOp) (s : State) : Host.Outcome State Fault Refusal :=
  match op with
  | .read width off => accessReg width off fun r => .next (s.hostRead r)
  | .write width off v => accessReg width off fun r => .next (s.busWrite r v)
  | .wait =>
    if busyBit s.status then .next { s with host := .wait :: s.host }
    else .next (s.hostRead .status)
  | .getd k =>
    .next { s.hostRead (.len k) with host := opsWindows k (s.busRead (.len k)).1 ++ s.host }
  | .rst => .next s.assertRst
  | .idle => .next s

/-- One bus cycle of the host: its next operation, or nothing when none is pending (log entry 6). -/
def hostCycle (s : State) : Host.Outcome State Fault Refusal :=
  match s.host with
  | [] => .next s
  | op :: rest => hostEvent op { s with host := rest }

end Sys2Proof.Machine
end

