-- ==== Sys2Proof/Machine/Step.lean ====
section
/-! DEFINITION. One step of the machine: one bus cycle (spec/20_memory.md R50, spec/70_reset_and_hazards.md R190). -/

namespace Sys2Proof.Machine

/-- One bus cycle. A command in flight with no cycle left to wait completes; else the host's next operation takes place,
and the command in flight, if there is one, has one cycle less to wait (R50, R190; log entries 5 and 6). -/
def step (s : State) : Host.Outcome State Fault Refusal :=
  match s.inFlight with
  | none => hostCycle s
  | some f =>
    match f.wait with
    | 0 => engineComplete f s
    | n + 1 => hostCycle (s.tick f n)

/-- The state in which the command word is accepted and completes in the next step: the core fetches no instructions
(R27), so the word stands where the engine takes its next command from, in flight with no cycle left to wait
(log entry 6). -/
def State.withFetchWord (s : State) (nbits w : Nat) : State := s.accept (tableWord nbits w) 0

end Sys2Proof.Machine
end

