-- ==== Sys2Proof/Safety.lean ====
section
/-! DEFINITION. What counts as a good state and a good run, and the words in which statements speak of what a command
leaves: sequences held by a register, completions, frames. None of it is used by the machine. -/

namespace Sys2Proof.Machine

/-- The invariant of the machine: what the spec says of every state between two events. -/
structure StateInv (s : State) : Prop where
  /-- BUSY is 1 exactly while a command is in flight (R33, R37). -/
  busy_eq : busyBit s.status = s.inFlight.isSome
  /-- The in-flight state is that of the last accepted word (R28, R37). -/
  flight_word : ∀ f, s.inFlight = some f → f.word = s.cmd
  /-- No event of a BUSY window changes a source register: the snapshot is what the registers hold (R37, R49). That it
  holds all of M, D and SCALE, not only the command's own sources, is the model's choice (log entry 8). -/
  flight_src : ∀ f, s.inFlight = some f → f.src = s.snapshot
  /-- The scratch sequences are those of the accepted command on its snapshot. R37 names them; that they stand from
  acceptance on with their computed values is the model's choice (log entry 9). -/
  flight_scratch : ∀ f, s.inFlight = some f → f.scratch = scratchOf f.word f.src
  /-- While a command is in flight DONE, ERR and ECODE are 0 (R34). -/
  flight_status : busyBit s.status = true →
    doneBit s.status = false ∧ errBit s.status = false ∧ ecodeField s.status = 0#4
  /-- ERR is 1 only beside an error code (R35, R36). -/
  err_code : errBit s.status = true → ecodeField s.status ≠ 0#4
  /-- ECODE values 9 to 15 are never reported (R160). -/
  ecode_le : (ecodeField s.status).toNat ≤ 8
  /-- The reserved bits of STATUS read as zero (R33). -/
  status_reserved : s.status &&& 0xFFFFF0F0#32 = 0#32
  /-- The reserved bits of CTRL read as zero (R26). -/
  ctrl_reserved : s.ctrl &&& 0xFFFFFFFE#32 = 0#32
  /-- The reserved bits of SCALE read as zero (R24). -/
  scale_reserved : s.scale &&& 0xFFFF0000#32 = 0#32
  /-- RSCALE holds a legal result scale (R25, R132). -/
  rscale_le : s.rscale.toNat ≤ 76

/-- A host operation within the BUSY-window discipline of R186: no write but to CTRL and STATUS, no read of a data
register, no RST. -/
def HostOp.disciplined : HostOp → Bool
  | .read width off => width = 32 && off % 4 = 0 && off < Config.spaceSize && !(regAt off).isData
  | .write width off _ => width = 32 && off % 4 = 0 && off < Config.spaceSize && !(regAt off).isGuarded
  | .wait => true
  | .getd _ => false
  | .rst => false
  | .idle => true

/-- A host operation that the interface has (R41) and that is not RST. -/
def HostOp.supported : HostOp → Bool
  | .read width off => width = 32 && off % 4 = 0 && off < Config.spaceSize
  | .write width off _ => width = 32 && off % 4 = 0 && off < Config.spaceSize
  | .wait => true
  | .getd _ => true
  | .rst => false
  | .idle => true

/-- No completion is due in `s`, so the host has its turn; `u` is the state in which its next operation is no longer
pending and a command in flight has one cycle less to wait (R50; log entries 5 and 6). -/
def HostTurn (s : State) (rest : List HostOp) (u : State) : Prop :=
  (s.inFlight = none ∧ u = { s with host := rest }) ∨
  ∃ f n, s.inFlight = some f ∧ f.wait = n + 1 ∧ u = { s with host := rest, inFlight := some { f with wait := n } }

/-- The reads, by offset, of the window words of D[k] that cover cells 0 to len − 1, at most the 32 there are (R44, R45,
R72). -/
def windowReads (k : DIdx) (len : Nat) : List HostOp :=
  (List.range (min 32 ((len + 7) / 8))).map fun w => .read 32 (0x400 + 0x80 * k.val + 4 * w)

/-- The end of a host program (R191): its last operation performed, and no command in flight. -/
def State.ended (s : State) : Bool := s.host.isEmpty && !busyBit s.status

/-- The decimal digits of x, most significant first, in the library's terms: `[0]` for 0 (R16). -/
def decimal (x : Nat) : DigitSeq := if x = 0 then [0] else (Nat.digits 10 x).reverse

/-- The number a digit sequence denotes, in the library's terms (R15). -/
def decimalValue (q : DigitSeq) : Nat := Nat.ofDigits 10 q.reverse

/-- The register holds the sequence q: LEN is its length and cell i its digit i (R30, R31). Cells at LEN and above may
hold anything. -/
def DigitReg.Holds (r : DigitReg) (q : DigitSeq) : Prop :=
  r.len.toNat = q.length ∧ ∀ (i : Nat) (h : i < 256), i < q.length → (r.cells[i]).toNat = q.getD i 0

/-- The register is a readable source of sequence q: it holds q, at most 256 digits, each 0 to 9 (R32). -/
def DigitReg.Source (r : DigitReg) (q : DigitSeq) : Prop :=
  r.Holds q ∧ q.length ≤ 256 ∧ ∀ x ∈ q, x ≤ 9

/-- A cell within LEN holds 10 to 15, LEN being at most 256 (R32, R164). -/
def DigitReg.BadDigit (r : DigitReg) : Prop :=
  r.len.toNat ≤ 256 ∧ ∃ (i : Nat) (h : i < 256), i < r.len.toNat ∧ 9 < (r.cells[i]).toNat

/-- STATUS and the in-flight state after a completion without error: BUSY 0, DONE 1, every other bit as before (R35). -/
def CompletedOk (s t : State) : Prop :=
  t.inFlight = none ∧ busyBit t.status = false ∧ doneBit t.status = true ∧
    ∀ j, 2 ≤ j → t.status.getLsbD j = s.status.getLsbD j

/-- What no completion changes: CTRL, CMD, SCALE and the host's side (R35, R61). -/
def KeepsControl (s t : State) : Prop :=
  t.ctrl = s.ctrl ∧ t.cmd = s.cmd ∧ t.scale = s.scale ∧ t.host = s.host ∧ t.responses = s.responses

/-- A completion without error whose only destination is D[rd], which then holds q. -/
def WroteDigits (s t : State) (rd : DIdx) (q : DigitSeq) : Prop :=
  CompletedOk s t ∧ KeepsControl s t ∧ t.m = s.m ∧ t.rscale = s.rscale ∧
    (∀ k, k ≠ rd → t.d[k] = s.d[k]) ∧ t.d[rd].Holds q

/-- A completion without error whose only destination is M[rd], which then is v. -/
def WroteMag (s t : State) (rd : MIdx) (v : Mag) : Prop :=
  CompletedOk s t ∧ KeepsControl s t ∧ t.d = s.d ∧ t.rscale = s.rscale ∧
    (∀ k, k ≠ rd → t.m[k] = s.m[k]) ∧ t.m[rd] = v

/-- A completion without error that writes the signed number n to M[rd] and rs to RSCALE and nothing else. -/
def WroteDecimal (s t : State) (rd : MIdx) (n : Int) (rs : Nat) : Prop :=
  CompletedOk s t ∧ KeepsControl s t ∧ t.d = s.d ∧ t.rscale.toNat = rs ∧
    (∀ k, k ≠ rd → t.m[k] = s.m[k]) ∧ (t.m[rd]).toInt = n

/-- A completion without error that writes no register. -/
def WroteNothing (s t : State) : Prop :=
  CompletedOk s t ∧ KeepsControl s t ∧ t.m = s.m ∧ t.d = s.d ∧ t.rscale = s.rscale

/-- A completion with error e: BUSY 0, DONE 1, ERR 1, ECODE e, every other bit of STATUS and every other register as
before (R35, R160). -/
def CompletedError (s t : State) (e : ErrCode) : Prop :=
  t = { s with status := t.status, inFlight := none } ∧
    busyBit t.status = false ∧ doneBit t.status = true ∧ errBit t.status = true ∧ ecodeField t.status = e.code ∧
    ∀ j, 3 ≤ j → (j < 8 ∨ 12 ≤ j) → t.status.getLsbD j = s.status.getLsbD j

/-- A remainder of the long division of n by d exceeds 2^256 − 1: the remainder after digit k is what the digits before
it leave modulo d, times 10, plus digit k (R110, R114). -/
def RemainderExceeds (n : DigitSeq) (d : Nat) : Prop :=
  ∃ k, k < n.length ∧ 2 ^ 256 ≤ decimalValue (n.take k) % d * 10 + n.getD k 0

/-- The magnitude of MULDEC's result: the exact product at scale sA + sB, taken to scale rs, truncated toward zero
(R142). -/
def mulMagnitude (a b : Int) (sA sB rs : Nat) : Nat :=
  if sA + sB ≤ rs then a.natAbs * b.natAbs * 10 ^ (rs - (sA + sB))
  else a.natAbs * b.natAbs / 10 ^ (sA + sB - rs)

/-- What the Multiply Transform answers for legal scales (R140, R142 to R144): the signed result where its magnitude has
at most 76 digits, E_OVERFLOW where it has more, and for a zero product at sA = sB = 0, rs = 76. -/
def MulLaw (out : Host.Outcome State Fault Refusal) (s : State) (rd : MIdx) (a b : Int) (sA sB rs : Nat) : Prop :=
  if mulMagnitude a b sA sB rs < 10 ^ 76 ∧ ¬(a * b = 0 ∧ sA = 0 ∧ sB = 0 ∧ rs = 76) then
    ∃ t, out = .next t ∧ WroteDecimal s t rd (a.sign * b.sign * (mulMagnitude a b sA sB rs : Int)) rs
  else ∃ t, out = .next t ∧ CompletedError s t .overflow

/-- The number of zeros the divide path appends to the dividend's digits (R93, R145). -/
def divPadding (sA sB rs : Nat) : Nat := (if sA < sB then sB - sA else 0) + rs

/-- What the Divide Transform answers for legal scales and a divisor other than 0 (R145 to R148): E_RANGE where a
remainder of the long division exceeds 2^256 − 1, else the signed truncated quotient where it has at most 76 digits,
else E_OVERFLOW. -/
def DivLaw (out : Host.Outcome State Fault Refusal) (s : State) (rd : MIdx) (a b : Int) (sA sB rs : Nat) : Prop :=
  let n := decimal a.natAbs ++ List.replicate (divPadding sA sB rs) 0
  let q := a.natAbs * 10 ^ divPadding sA sB rs / b.natAbs
  (RemainderExceeds n b.natAbs → ∃ t, out = .next t ∧ CompletedError s t .range) ∧
  (¬RemainderExceeds n b.natAbs → q < 10 ^ 76 →
    ∃ t, out = .next t ∧ WroteDecimal s t rd (a.sign * b.sign * (q : Int)) rs) ∧
  (¬RemainderExceeds n b.natAbs → 10 ^ 76 ≤ q → ∃ t, out = .next t ∧ CompletedError s t .overflow)

/-- Issues commands one after another, each accepted and completed, as long as none reports an error (R72, R151). -/
def runCommands : List Instr → State → Option State
  | [], s => some s
  | i :: rest, s =>
    match exec i (s.accept (encode i) 0) with
    | .next t => if errBit t.status then none else runCommands rest t
    | _ => none

/-- The error codes each command can complete with (R160, column "raised by"). -/
def mayRaise : Instr → ErrCode → Bool
  | .todig _ _, _ => false
  | .fromdig _ _, e => e = .len || e = .digit || e = .range
  | .dmul _ _ _, e => e = .len || e = .digit || e = .cap
  | .ddiv _ _ _, e => e = .len || e = .digit || e = .divzero || e = .range
  | .dalign _ _ _ _, e => e = .len || e = .digit || e = .cap
  | .ovchk _, e => e = .len || e = .digit || e = .overflow
  | .muldec _ _ _ _, e => e = .scale || e = .overflow
  | .muldecDefault _ _ _, e => e = .scale || e = .overflow
  | .divdec _ _ _ _, e => e = .scale || e = .divzero || e = .range || e = .overflow
  | .divdecDefault _ _ _, e => e = .scale || e = .divzero || e = .range || e = .overflow

/-- The registers of the map a command may change besides STATUS (R61, R132): its destinations. -/
def writesReg : Instr → Reg → Bool
  | .todig rd _, r => isDigitsOf rd r
  | .fromdig rd _, r => isMagOf rd r
  | .dmul rd _ _, r => isDigitsOf rd r
  | .ddiv rd _ _, r => isDigitsOf rd r
  | .dalign rd _ _ _, r => isDigitsOf rd r
  | .ovchk _, _ => false
  | .muldec rd _ _ _, r => isMagOf rd r || r = .rscale
  | .muldecDefault rd _ _, r => isMagOf rd r || r = .rscale
  | .divdec rd _ _ _, r => isMagOf rd r || r = .rscale
  | .divdecDefault rd _ _, r => isMagOf rd r || r = .rscale
where
  isDigitsOf (k : DIdx) : Reg → Bool
    | .len j => j = k
    | .window j _ => j = k
    | _ => false
  isMagOf (k : MIdx) : Reg → Bool
    | .mag j _ => j = k
    | _ => false

end Sys2Proof.Machine
end

