-- ==== Sys2Proof/Certificates/Slice0/Obligations.lean ====
section
/-! DEFINITION. The statements for the provers. Each docstring names the rule of spec/ it formalises, or says that it
rests on a choice of the model and names the log entry. -/

open Sys2Proof Sys2Proof.Machine

/-! ### Reset and the invariant -/

/-- R39, the rows that give a value: after reset the control registers are 0, ID and CFG read their constants, nothing is
in flight and IRQ is 0. (M, D and LEN have no value in the spec; nothing is said of them.) -/
def Obligations.ResetControlRegisters : Prop :=
  State.reset.readReg .ctrl = 0x00000000#32 ∧ State.reset.readReg .status = 0x00000000#32 ∧
  State.reset.readReg .cmd = 0x00000000#32 ∧ State.reset.readReg .scale = 0x00000000#32 ∧
  State.reset.readReg .rscale = 0x00000000#32 ∧ State.reset.readReg .id = 0x44430100#32 ∧
  State.reset.readReg .cfg = 0x444C0100#32 ∧ State.reset.inFlight = none ∧ State.reset.irq = false

/-- The invariant of the machine holds right after reset. -/
def Obligations.ResetSatisfiesInvariant : Prop := StateInv State.reset

/-- Every step keeps the invariant, from every state that has it: BUSY says exactly whether a command is in flight, the
in-flight snapshot is what the source registers hold, reserved bits read as zero, error codes stay in range. Two clauses
rest on the model's choices: that the snapshot holds all of M, D and SCALE (log entry 8), and that the scratch sequences
stand from acceptance on with their computed values (log entry 9). -/
def Obligations.StepKeepsInvariant : Prop :=
  ∀ s t, StateInv s → step s = .next t → StateInv t

/-! ### Encoding -/

/-- Decoding the word of a well-formed command gives the command back, whatever its operands (R62, R70). -/
def Obligations.DecodeOfEncode : Prop :=
  ∀ i : Instr, i.wf = true → decode (encode i) = .ok i

/-- A word that decodes is the word of the command it decodes to, and that command is well-formed: no command has two
words (R62, R66, R70). -/
def Obligations.EncodeOfDecode : Prop :=
  ∀ (w : Word) (i : Instr), decode w = .ok i → i.wf = true ∧ encode i = w

/-- R66: a word is legal if and only if exactly one row of the opcode map matches it, that row names the command, and no
two rows match the same word. -/
def Obligations.LegalWordsMatchOneRow : Prop :=
  ∀ w : Word, (opcodeMap.filter (·.matchesWord w)).length ≤ 1 ∧
    ∀ name : String, (∃ i, decode w = .ok i ∧ i.mnemonic = name) ↔
      ∃ r ∈ opcodeMap, r.mnemonic = name ∧ r.matchesWord w = true

/-- A word is illegal exactly under the conditions that R67 lists. (That it is accepted and completes with E_ILLEGAL is
stated by CmdWriteAcceptsCommand and IllegalWordCompletes.) -/
def Obligations.IllegalWordConditions : Prop :=
  ∀ w : Word,
    (∃ e, decode w = .error e) ↔
      (fieldOpc w = 0 ∨ 9 ≤ fieldOpc w) ∨ fieldRsv w ≠ 0 ∨
      ((fieldOpc w = 1 ∨ fieldOpc w = 2 ∨ fieldOpc w = 5 ∨ fieldOpc w = 6) ∧ fieldRb w ≠ 0) ∨
      (fieldOpc w = 6 ∧ fieldRd w ≠ 0) ∨
      (fieldOpc w ≠ 5 ∧ fieldImmb w ≠ 0) ∨
      ((fieldOpc w = 1 ∨ fieldOpc w = 2 ∨ fieldOpc w = 3 ∨ fieldOpc w = 4 ∨ fieldOpc w = 6) ∧ fieldImm w ≠ 0) ∨
      (fieldOpc w ≠ 7 ∧ fieldOpc w ≠ 8 ∧ fieldDs w ≠ 0) ∨
      (fieldDs w ≠ 0 ∧ fieldImm w ≠ 0)

/-- R75: the words of the encoding examples, written out, decode to the commands they stand for; the illegal ones do
not decode. -/
def Obligations.EncodingExamples : Prop :=
  decode 0x00000001#32 = .ok (.todig 0 0) ∧ decode 0x00000141#32 = .ok (.todig 1 1) ∧
  decode 0x00000382#32 = .ok (.fromdig 2 3) ∧ decode 0x00000483#32 = .ok (.dmul 2 0 1) ∧
  decode 0x00000444#32 = .ok (.ddiv 1 0 1) ∧ decode 0x040202C5#32 = .ok (.dalign 3 2 4 2) ∧
  decode 0x00030045#32 = .ok (.dpad 1 0 3) ∧ decode 0x00000306#32 = .ok (.ovchk 3) ∧
  decode 0x00040487#32 = .ok (.muldec 2 0 1 4) ∧ decode 0x00001487#32 = .ok (.muldecDefault 2 0 1) ∧
  decode 0x00020488#32 = .ok (.divdec 2 0 1 2) ∧ decode 0x000014C8#32 = .ok (.divdecDefault 3 0 1) ∧
  ∀ w ∈ [0x00000000#32, 0x00000009#32, 0x00002001#32, 0x00000401#32, 0x00011007#32, 0x00001003#32, 0x01000007#32],
    (decode w).toOption = none

/-! ### A step -/

/-- When the command in flight has no cycle left to wait and its word decodes, the step is that command's meaning
(R61). -/
def Obligations.StepRunsDecodedCommand : Prop :=
  ∀ (s : State) (f : InFlight) (i : Instr),
    s.inFlight = some f → f.wait = 0 → decode f.word = .ok i → step s = exec i s

/-- R161: an illegal word completes with E_ILLEGAL; no register other than STATUS changes, whatever the sources hold. -/
def Obligations.IllegalWordCompletes : Prop :=
  ∀ (s : State) (f : InFlight) (e : Illegal),
    s.inFlight = some f → f.wait = 0 → decode f.word = .error e →
      ∃ t, step s = .next t ∧ CompletedError s t .illegal

/-- When no completion is due, the step performs the host's next operation, and a command in flight has one cycle less
to wait (R50; how the two agents take turns is the model's choice, log entry 5). -/
def Obligations.StepPerformsHostOperation : Prop :=
  ∀ (s : State) (op : HostOp) (rest : List HostOp), s.host = op :: rest →
    (s.inFlight = none → step s = hostEvent op { s with host := rest }) ∧
    ∀ (f : InFlight) (n : Nat), s.inFlight = some f → f.wait = n + 1 →
      step s = hostEvent op { s with host := rest, inFlight := some { f with wait := n } }

/-- A command in flight completes: within its remaining wait and one cycle more, whatever supported accesses the host
makes meanwhile, the machine runs without a stop to a state in which nothing is in flight and DONE is 1 (R190: a command
never stays in flight forever). -/
def Obligations.CommandInFlightCompletes : Prop :=
  ∀ (s : State) (f : InFlight), StateInv s → s.inFlight = some f → (∀ op ∈ s.host, op.supported = true) →
    ∃ t, Sys2Proof.core.run (f.wait + 1) s = .next t ∧ t.inFlight = none ∧ doneBit t.status = true ∧ t.cmd = s.cmd

/-- No host operation but RST abandons the command in flight, and no host write resets the core, in any state: a write
leaves every register but its own and STATUS as it reads, and one that is not to CMD leaves BUSY and the command in
flight (R182). That the step takes one cycle from the wait is the model's choice (log entry 5), and so is that it leaves
the snapshot and the scratch sequences as they are held in flight (log entries 8 and 9). -/
def Obligations.OnlyRstAbandonsCommand : Prop :=
  (∀ (s t : State) (f : InFlight) (n : Nat), StateInv s → s.inFlight = some f → f.wait = n + 1 →
    s.host.head? ≠ some .rst → step s = .next t → t.inFlight = some { f with wait := n } ∧ t.cmd = s.cmd) ∧
  ∀ (s : State) (r : Reg) (v : Word),
    (∀ r', r' ≠ r → r' ≠ .status → (s.busWrite r v).readReg r' = s.readReg r') ∧
    (r ≠ .cmd → (s.busWrite r v).inFlight = s.inFlight ∧ busyBit (s.busWrite r v).status = busyBit s.status)

/-! ### Acceptance and completion -/

/-- R34: acceptance sets BUSY, clears DONE, ERR and ECODE, and keeps WBUSY. -/
def Obligations.AcceptanceStatus : Prop :=
  ∀ (s : State) (w : Word) (n : Nat),
    busyBit (s.accept w n).status = true ∧ doneBit (s.accept w n).status = false ∧
    errBit (s.accept w n).status = false ∧ ecodeField (s.accept w n).status = 0#4 ∧
    wbusyBit (s.accept w n).status = wbusyBit s.status

/-- A host write to CMD while BUSY = 0 accepts any word; while BUSY = 1 it is ignored and sets WBUSY; a read of CMD
returns the last accepted word, 0 after reset; an illegal word completes with E_ILLEGAL (R28). The snapshot of the source
registers is taken at acceptance (R37, R61); that it is of all of M, D and SCALE, not only of the command's own sources,
is the model's choice (log entry 8). -/
def Obligations.CmdWriteAcceptsCommand : Prop :=
  (∀ (s : State) (w : Word), busyBit s.status = false →
    (s.busWrite .cmd w).cmd = w ∧ (s.busWrite .cmd w).status = (s.accept w 0).status ∧
    (∃ f, (s.busWrite .cmd w).inFlight = some f ∧ f.word = w ∧ f.src = s.snapshot) ∧
    ((s.busWrite .cmd w).busRead .cmd).1 = w) ∧
  (∀ (s : State) (w : Word), busyBit s.status = true →
    (s.busWrite .cmd w).cmd = s.cmd ∧ (s.busWrite .cmd w).inFlight = s.inFlight ∧
    wbusyBit (s.busWrite .cmd w).status = true ∧ ((s.busWrite .cmd w).busRead .cmd).1 = s.cmd) ∧
  (State.reset.busRead .cmd).1 = 0#32 ∧
  ∀ (f : InFlight) (s : State) (e : Illegal), decode f.word = .error e →
    ∃ t, engineComplete f s = .next t ∧ CompletedError s t .illegal

/-- Every command completes (R61, R160): in every state exec answers a next state, which is either a completion without
error in which no register of the map but STATUS and the command's destinations reads differently, or an error
completion, with a code the command can raise, that changes nothing but STATUS (R35, R172). -/
def Obligations.EveryCommandCompletes : Prop :=
  ∀ (i : Instr) (s : State), ∃ t, exec i s = .next t ∧ KeepsControl s t ∧
    ((CompletedOk s t ∧ ∀ r : Reg, r ≠ .status → writesReg i r = false → t.readReg r = s.readReg r) ∨
      ∃ e, mayRaise i e = true ∧ CompletedError s t e)

/-- The STATUS word a host reads after an accepted command has completed (R33 to R35, R160): 0x2 without error; with an
error 0x6 and, in bits 11:8, a code the command can raise; WBUSY as it was; CMD keeps the word. -/
def Obligations.StatusWordAfterCompletion : Prop :=
  ∀ (i : Instr) (s t : State) (n : Nat), StateInv s → exec i (s.accept (encode i) n) = .next t →
    t.cmd = encode i ∧
    (t.status = (s.status &&& 0x8#32) ||| 0x2#32 ∨
      ∃ e, mayRaise i e = true ∧
        t.status = (s.status &&& 0x8#32) ||| 0x6#32 ||| (e.code.setWidth 32 <<< 8))

/-! ### The unit commands -/

/-- TODIG (R80): D[rd] receives the decimal digits of the unsigned value of M[ra], at most 78 of them; it never raises an
error; nothing else changes but STATUS. -/
def Obligations.TodigWritesDecimalDigits : Prop :=
  ∀ (rd : DIdx) (ra : MIdx) (s : State), ∃ t, exec (.todig rd ra) s = .next t ∧
    WroteDigits s t rd (decimal s.sources.m[ra].toNat) ∧ (decimal s.sources.m[ra].toNat).length ≤ 78

/-- FROMDIG (R82): a readable source of value below 2^256 gives M[rd] that value; a greater value raises E_RANGE. -/
def Obligations.FromdigWritesValue : Prop :=
  ∀ (rd : MIdx) (ra : DIdx) (s : State) (q : DigitSeq), s.sources.d[ra].Source q →
    (decimalValue q < 2 ^ 256 →
      ∃ t, exec (.fromdig rd ra) s = .next t ∧ WroteMag s t rd (BitVec.ofNat 256 (decimalValue q))) ∧
    (2 ^ 256 ≤ decimalValue q → ∃ t, exec (.fromdig rd ra) s = .next t ∧ CompletedError s t .range)

/-- DMUL (R101): the exact product without leading zeros where it has at most 256 digits, else E_CAP. -/
def Obligations.DmulWritesProduct : Prop :=
  ∀ (rd ra rb : DIdx) (s : State) (a b : DigitSeq), s.sources.d[ra].Source a → s.sources.d[rb].Source b →
    (decimalValue a * decimalValue b < 10 ^ 256 →
      ∃ t, exec (.dmul rd ra rb) s = .next t ∧ WroteDigits s t rd (decimal (decimalValue a * decimalValue b))) ∧
    (10 ^ 256 ≤ decimalValue a * decimalValue b →
      ∃ t, exec (.dmul rd ra rb) s = .next t ∧ CompletedError s t .cap)

/-- DDIV (R112, R113): the digits of the truncated quotient, unless a remainder of the long division exceeds 2^256 − 1,
which raises E_RANGE. -/
def Obligations.DdivWritesQuotient : Prop :=
  ∀ (rd ra : DIdx) (rb : MIdx) (s : State) (n : DigitSeq), s.sources.d[ra].Source n → s.sources.m[rb] ≠ 0#256 →
    (¬RemainderExceeds n s.sources.m[rb].toNat →
      ∃ t, exec (.ddiv rd ra rb) s = .next t ∧
        WroteDigits s t rd (decimal (decimalValue n / s.sources.m[rb].toNat))) ∧
    (RemainderExceeds n s.sources.m[rb].toNat → ∃ t, exec (.ddiv rd ra rb) s = .next t ∧ CompletedError s t .range)

/-- DALIGN (R90, R91): pads with zeros up to 256 digits, beyond that E_CAP; removes trailing digits, `[0]` where none is
left; copies where the scales are equal. -/
def Obligations.DalignWritesAlignment : Prop :=
  ∀ (rd ra : DIdx) (src tgt : Nat) (s : State) (q : DigitSeq), s.sources.d[ra].Source q →
    (src ≤ tgt → q.length + (tgt - src) ≤ 256 →
      ∃ t, exec (.dalign rd ra src tgt) s = .next t ∧ WroteDigits s t rd (q ++ List.replicate (tgt - src) 0)) ∧
    (src ≤ tgt → 256 < q.length + (tgt - src) →
      ∃ t, exec (.dalign rd ra src tgt) s = .next t ∧ CompletedError s t .cap) ∧
    (tgt < src → src - tgt < q.length →
      ∃ t, exec (.dalign rd ra src tgt) s = .next t ∧ WroteDigits s t rd (q.take (q.length - (src - tgt)))) ∧
    (tgt < src → q.length ≤ src - tgt →
      ∃ t, exec (.dalign rd ra src tgt) s = .next t ∧ WroteDigits s t rd [0])

/-- OVCHK (R94): at most 76 digits completes without error and writes no register; more raises E_OVERFLOW. -/
def Obligations.OvchkGuardsLength : Prop :=
  ∀ (ra : DIdx) (s : State) (q : DigitSeq), s.sources.d[ra].Source q →
    (q.length ≤ 76 → ∃ t, exec (.ovchk ra) s = .next t ∧ WroteNothing s t) ∧
    (76 < q.length → ∃ t, exec (.ovchk ra) s = .next t ∧ CompletedError s t .overflow)

/-- R163: a command that reads a digit register whose LEN exceeds 256 raises E_LEN, whatever its other operands; DMUL
reads B after a readable A (R169). -/
def Obligations.LenAboveCapacityRaises : Prop :=
  ∀ (s : State) (k : DIdx), 256 < s.sources.d[k].len.toNat →
    (∀ (i : Instr), (∃ m, i = .fromdig m k) ∨ (∃ d b, i = .dmul d k b) ∨ (∃ d b, i = .ddiv d k b) ∨
        (∃ d x y, i = .dalign d k x y) ∨ i = .ovchk k → ∃ t, exec i s = .next t ∧ CompletedError s t .len) ∧
    ∀ (d a : DIdx) (q : DigitSeq), s.sources.d[a].Source q →
      ∃ t, exec (.dmul d a k) s = .next t ∧ CompletedError s t .len

/-- R164: a command that reads a digit register one of whose cells within LEN holds 10 to 15 raises E_DIGIT, whatever its
other operands; DMUL reads B after a readable A (R169). -/
def Obligations.BadDigitRaises : Prop :=
  ∀ (s : State) (k : DIdx), s.sources.d[k].BadDigit →
    (∀ (i : Instr), (∃ m, i = .fromdig m k) ∨ (∃ d b, i = .dmul d k b) ∨ (∃ d b, i = .ddiv d k b) ∨
        (∃ d x y, i = .dalign d k x y) ∨ i = .ovchk k → ∃ t, exec i s = .next t ∧ CompletedError s t .digit) ∧
    ∀ (d a : DIdx) (q : DigitSeq), s.sources.d[a].Source q →
      ∃ t, exec (.dmul d a k) s = .next t ∧ CompletedError s t .digit

/-- R32: every digit register is readable, or its LEN exceeds 256, or a cell within LEN is above 9; a readable one holds
exactly one sequence. -/
def Obligations.SourceReadCases : Prop :=
  ∀ r : DigitReg,
    ((256 < r.len.toNat ∧ r.read = .error .len) ∨ (r.BadDigit ∧ r.read = .error .digit) ∨
      ∃ q, r.Source q ∧ r.read = .ok q) ∧
    ∀ q q', r.Source q → r.Source q' → q = q'

/-- R165: a divisor of 0 raises E_DIVZERO: for DDIV with a readable source, for DIVDEC with legal scales, before any
division step. -/
def Obligations.ZeroDivisorRaises : Prop :=
  (∀ (s : State) (rd ra : DIdx) (rb : MIdx) (q : DigitSeq), s.sources.d[ra].Source q → s.sources.m[rb] = 0#256 →
    ∃ t, exec (.ddiv rd ra rb) s = .next t ∧ CompletedError s t .divzero) ∧
  ∀ (s : State) (rd ra rb : MIdx), s.sources.m[rb] = 0#256 →
    s.sources.scale.toNat % 256 ≤ 76 → s.sources.scale.toNat / 256 % 256 ≤ 76 →
    (∀ rs, rs ≤ 76 → ∃ t, exec (.divdec rd ra rb rs) s = .next t ∧ CompletedError s t .divzero) ∧
    ∃ t, exec (.divdecDefault rd ra rb) s = .next t ∧ CompletedError s t .divzero

/-! ### The composite commands -/

/-- R162: MULDEC and DIVDEC raise E_SCALE when SA > 76, SB > 76, or DS = 0 and IMM > 76, before any arithmetic. -/
def Obligations.IllegalScaleRaises : Prop :=
  ∀ (s : State) (rd ra rb : MIdx) (rs : Nat),
    (76 < s.sources.scale.toNat % 256 ∨ 76 < s.sources.scale.toNat / 256 % 256 →
      (∃ t, exec (.muldecDefault rd ra rb) s = .next t ∧ CompletedError s t .scale) ∧
      ∃ t, exec (.divdecDefault rd ra rb) s = .next t ∧ CompletedError s t .scale) ∧
    (76 < s.sources.scale.toNat % 256 ∨ 76 < s.sources.scale.toNat / 256 % 256 ∨ 76 < rs →
      (∃ t, exec (.muldec rd ra rb rs) s = .next t ∧ CompletedError s t .scale) ∧
      ∃ t, exec (.divdec rd ra rb rs) s = .next t ∧ CompletedError s t .scale)

/-- MULDEC with an explicit result scale and with the default max(SA, SB) (R132, R140, R142 to R144): the exact signed
product at scale rs, truncated toward zero, in M[rd], and rs in RSCALE; E_OVERFLOW beyond 76 digits, and for a zero
product at sA = sB = 0, rs = 76. -/
def Obligations.MuldecWritesProduct : Prop :=
  ∀ (s : State) (rd ra rb : MIdx) (sA sB : Nat),
    sA = s.sources.scale.toNat % 256 → sB = s.sources.scale.toNat / 256 % 256 → sA ≤ 76 → sB ≤ 76 →
    (∀ rs, rs ≤ 76 →
      MulLaw (exec (.muldec rd ra rb rs) s) s rd s.sources.m[ra].toInt s.sources.m[rb].toInt sA sB rs) ∧
    MulLaw (exec (.muldecDefault rd ra rb) s) s rd s.sources.m[ra].toInt s.sources.m[rb].toInt sA sB (max sA sB)

/-- DIVDEC with an explicit result scale and with the default max(SA, SB) (R132, R145 to R148): the signed quotient
truncated toward zero, the dividend padded by max(0, sB − sA) + rs zeros, so without compensation where sA > sB;
E_RANGE and E_OVERFLOW. -/
def Obligations.DivdecWritesQuotient : Prop :=
  ∀ (s : State) (rd ra rb : MIdx) (sA sB : Nat),
    sA = s.sources.scale.toNat % 256 → sB = s.sources.scale.toNat / 256 % 256 → sA ≤ 76 → sB ≤ 76 → s.sources.m[rb] ≠ 0#256 →
    (∀ rs, rs ≤ 76 →
      DivLaw (exec (.divdec rd ra rb rs) s) s rd s.sources.m[ra].toInt s.sources.m[rb].toInt sA sB rs) ∧
    DivLaw (exec (.divdecDefault rd ra rb) s) s rd s.sources.m[ra].toInt s.sources.m[rb].toInt sA sB (max sA sB)

/-- R150: the sequences a composite command builds at legal scales: at most 77, 77, 154 and 230 digits for MULDEC; at
most 77 and 229 for DIVDEC, and its quotient at most 229. -/
def Obligations.CompositeCapacity : Prop :=
  ∀ (src : Sources) (ra rb : MIdx) (rs : Nat), (src.operands ra rb).sA ≤ 76 → (src.operands ra rb).sB ≤ 76 → rs ≤ 76 →
    (mulScratch (src.operands ra rb) rs).dA.length ≤ 77 ∧ (mulScratch (src.operands ra rb) rs).dB.length ≤ 77 ∧
    (mulScratch (src.operands ra rb) rs).p.length ≤ 154 ∧ (mulScratch (src.operands ra rb) rs).p2.length ≤ 230 ∧
    (divNumerator (src.operands ra rb) rs).length ≤ 229 ∧
    ∀ q, divide (divNumerator (src.operands ra rb) rs) (src.operands ra rb).b.natAbs = .ok q → q.length ≤ 229

/-- R151 for MULDEC, both forms: for non-negative operands and legal scales the unit commands, at the result scale of the
form, give the same M[rd], and they report an error exactly when MULDEC does. -/
def Obligations.MuldecEqualsUnitCommands : Prop :=
  ∀ (s : State) (rd ra rb : MIdx) (x y z : DIdx) (i : Instr) (sA sB rs : Nat),
    sA = s.scale.toNat % 256 → sB = s.scale.toNat / 256 % 256 → sA ≤ 76 → sB ≤ 76 → rs ≤ 76 → x ≠ y →
    0 ≤ s.m[ra].toInt → 0 ≤ s.m[rb].toInt →
    i = .muldec rd ra rb rs ∨ (i = .muldecDefault rd ra rb ∧ rs = max sA sB) →
    (runCommands [.todig x ra, .todig y rb, .dmul z x y, .dalign z z (sA + sB) rs, .ovchk z, .fromdig rd z] s).map
        (·.m[rd]) =
      (runCommands [i] s).map (·.m[rd])

/-- R151 for DIVDEC, both forms: for non-negative operands and legal scales the unit commands, at the result scale of the
form, give the same M[rd], and they report an error exactly when DIVDEC does. -/
def Obligations.DivdecEqualsUnitCommands : Prop :=
  ∀ (s : State) (rd ra rb : MIdx) (x z : DIdx) (i : Instr) (sA sB rs : Nat),
    sA = s.scale.toNat % 256 → sB = s.scale.toNat / 256 % 256 → sA ≤ 76 → sB ≤ 76 → rs ≤ 76 →
    0 ≤ s.m[ra].toInt → 0 ≤ s.m[rb].toInt →
    i = .divdec rd ra rb rs ∨ (i = .divdecDefault rd ra rb ∧ rs = max sA sB) →
    (runCommands [.todig x ra, .dpad x x (divPadding sA sB rs), .ddiv z x rb, .ovchk z, .fromdig rd z] s).map (·.m[rd]) =
      (runCommands [i] s).map (·.m[rd])

/-! ### The kernels and the conversions -/

/-- R84: TODIG then FROMDIG leaves the original 256-bit pattern, without error, for every pattern; FROMDIG then TODIG
strips leading zeros, for every readable sequence of value at most 2^256 − 1 (the empty one gives `[0]`). -/
def Obligations.ConversionRoundTrips : Prop :=
  (∀ (s : State) (k : DIdx) (a b : MIdx),
    ∃ t, runCommands [.todig k a, .fromdig b k] s = some t ∧ t.m[b] = s.m[a]) ∧
  ∀ (s : State) (a b : DIdx) (k : MIdx) (q : DigitSeq), s.d[a].Source q → decimalValue q ≤ 2 ^ 256 - 1 →
    ∃ t, runCommands [.fromdig k a, .todig b k] s = some t ∧ t.d[b].Holds (strip q)

/-- R16: digitsOf gives the canonical sequence of the value; strip gives the canonical sequence of the same value. -/
def Obligations.DigitsOfIsCanonical : Prop :=
  (∀ x, digitsOf x = decimal x ∧ canonical (digitsOf x) = true ∧ allDigits (digitsOf x) = true ∧
    value (digitsOf x) = x) ∧
  ∀ q, allDigits q = true → strip q = digitsOf (value q)

/-- R15, R83: the value of a sequence is the sum of its digits times their powers of ten, and the loop of R83 computes
it. -/
def Obligations.ValueIsWeightedSum : Prop :=
  ∀ q : DigitSeq, value q = ∑ i ∈ Finset.range q.length, q.getD i 0 * 10 ^ (q.length - 1 - i) ∧ fromDigits q = value q

/-- R92: alignment multiplies the value by 10^(to − from), or divides it by 10^(from − to) dropping the remainder. -/
def Obligations.AlignmentValueLaw : Prop :=
  ∀ (q : DigitSeq) (src tgt : Nat), allDigits q = true →
    (src ≤ tgt → value (align q src tgt) = value q * 10 ^ (tgt - src)) ∧
    (tgt < src → value (align q src tgt) = value q / 10 ^ (src - tgt))

/-- R102: the schoolbook procedure computes the same sequence as multiply, for nonempty digit sequences. -/
def Obligations.SchoolbookEqualsMultiply : Prop :=
  ∀ a b : DigitSeq, a ≠ [] → b ≠ [] → allDigits a = true → allDigits b = true → schoolbook a b = multiply a b

/-- R103: the laws of multiply. -/
def Obligations.MultiplyLaws : Prop :=
  ∀ a b : DigitSeq, value (multiply a b) = value a * value b ∧ multiply a b = multiply b a ∧
    (0 < value a → 0 < value b →
      digitlen (value a) + digitlen (value b) - 1 ≤ (multiply a b).length ∧
      (multiply a b).length ≤ digitlen (value a) + digitlen (value b)) ∧
    (value a = 0 ∨ value b = 0 → multiply a b = [0])

/-- R113: when divide raises no E_RANGE its result is the canonical sequence of the truncated quotient. -/
def Obligations.DivideIsExactQuotient : Prop :=
  ∀ (n : DigitSeq) (d : Nat) (q : DigitSeq), allDigits n = true → 1 ≤ d → d ≤ 2 ^ 256 - 1 →
    divide n d = .ok q → q = digitsOf (value n / d)

/-- R110, R114: divide raises E_RANGE exactly when a remainder exceeds 2^256 − 1 and never for a divisor of at most
floor(2^256 / 10); no other error. -/
def Obligations.DivideRangeExactly : Prop :=
  ∀ (n : DigitSeq) (d : Nat), allDigits n = true → 1 ≤ d → d ≤ 2 ^ 256 - 1 →
    (RemainderExceeds n d → divide n d = .error .range) ∧
    (¬RemainderExceeds n d → ∃ q, divide n d = .ok q) ∧
    (d ≤ 11579208923731619542357098500868790785326998466564056403945758400791312963993 → ∃ q, divide n d = .ok q)

/-! ### The register space -/

/-- R22, R23: ID and CFG read their constants at any time, BUSY or not; their fields are the interface version, DCAP, PMAX,
NM and ND; a write to either has no effect and does not set WBUSY. -/
def Obligations.IdAndCfgAreConstant : Prop :=
  ∀ (s : State) (v : Word),
    s.busRead .id = (0x44430100#32, s) ∧ s.busWrite .id v = s ∧
    (0x44430100#32).extractLsb' 16 16 = 0x4443#16 ∧ (0x44430100#32).extractLsb' 8 8 = 0x01#8 ∧
    (0x44430100#32).extractLsb' 0 8 = 0x00#8 ∧
    s.busRead .cfg = (0x444C0100#32, s) ∧ s.busWrite .cfg v = s ∧
    ((0x444C0100#32).extractLsb' 0 10).toNat = 256 ∧ ((0x444C0100#32).extractLsb' 10 6).toNat = 0 ∧
    ((0x444C0100#32).extractLsb' 16 8).toNat = 76 ∧ ((0x444C0100#32).extractLsb' 24 4).toNat = 4 ∧
    ((0x444C0100#32).extractLsb' 28 4).toNat = 4

/-- R44: the address map: every listed register is found at its offset, and every other offset is reserved. -/
def Obligations.AddressMap : Prop :=
  (∀ r : Reg, regAt r.offset = r) ∧
  ∀ off, off < 4096 → off % 4 = 0 → (regAt off = .reserved ↔ ∀ r : Reg, r ≠ .reserved → r.offset ≠ off)

/-- R26: a write to CTRL stores IE and nothing else, at any time, also while BUSY = 1, and does not set WBUSY. -/
def Obligations.CtrlWrite : Prop :=
  ∀ (s : State) (v : Word),
    s.busWrite .ctrl v = { s with ctrl := (s.busWrite .ctrl v).ctrl } ∧
    ieBit (s.busWrite .ctrl v).ctrl = v.getLsbD 0 ∧
    ∀ i, 1 ≤ i → ((s.busWrite .ctrl v).busRead .ctrl).1.getLsbD i = false

/-- R24, R30, R25: writes outside the BUSY window: SCALE stores SA and SB, LEN any value 0 to 511 and leaves the cells,
a read returns what was stored, with the reserved bits zero, and nothing else changes; a write to RSCALE is ignored. -/
def Obligations.DataRegisterWrites : Prop :=
  ∀ (s : State) (v : Word) (k : DIdx), busyBit s.status = false →
    s.busWrite .scale v = { s with scale := BitVec.ofNat 32 (v.toNat % 65536) } ∧
    ((s.busWrite .scale v).busRead .scale).1.toNat = v.toNat % 65536 ∧
    s.busWrite (.len k) v = { s with d := s.d.set k { s.d[k] with len := BitVec.ofNat 9 (v.toNat % 512) } } ∧
    ((s.busWrite (.len k) v).busRead (.len k)).1.toNat = v.toNat % 512 ∧
    s.busWrite .rscale v = s

/-- R36: a host write to STATUS clears DONE, ERR and WBUSY where the value has a 1, leaves every other bit and every
other register, at any time, and does not set WBUSY. -/
def Obligations.StatusWriteOneToClear : Prop :=
  ∀ (s : State) (v : Word),
    s.busWrite .status v = { s with status := (s.busWrite .status v).status } ∧
    doneBit (s.busWrite .status v).status = (doneBit s.status && !v.getLsbD 1) ∧
    errBit (s.busWrite .status v).status = (errBit s.status && !v.getLsbD 2) ∧
    wbusyBit (s.busWrite .status v).status = (wbusyBit s.status && !v.getLsbD 3) ∧
    ∀ i, i = 0 ∨ 4 ≤ i → (s.busWrite .status v).status.getLsbD i = s.status.getLsbD i

/-- R45: bit 4j + b of window word w is bit b of cell 8w + j; a write outside the BUSY window sets exactly those eight
cells, never LEN, and no other register. -/
def Obligations.DigitWindowPacking : Prop :=
  ∀ (s : State) (k : DIdx) (w : Fin 32) (v : Word), busyBit s.status = false →
    (∀ (j b : Nat) (hj : j < 8), b < 4 →
      (s.busRead (.window k w)).1.getLsbD (4 * j + b) = (s.d[k].cells[8 * w.val + j]'(by omega)).getLsbD b) ∧
    s.busWrite (.window k w) v = { s with d := (s.busWrite (.window k w) v).d } ∧
    (s.busWrite (.window k w) v).d[k].len = s.d[k].len ∧
    (∀ j, j ≠ k → (s.busWrite (.window k w) v).d[j] = s.d[j]) ∧
    (∀ (i : Nat) (hi : i < 256), i / 8 ≠ w.val →
      (s.busWrite (.window k w) v).d[k].cells[i] = s.d[k].cells[i]) ∧
    ∀ (j : Nat) (hj : j < 8),
      (s.busWrite (.window k w) v).d[k].cells[8 * w.val + j]'(by omega) = v.extractLsb' (4 * j) 4

/-- R42: word w of a magnitude register is its bits [32w + 31 : 32w], word 0 the least significant; a write outside the
BUSY window sets exactly those bits and no other register. -/
def Obligations.MagnitudeWordOrder : Prop :=
  ∀ (s : State) (k : MIdx) (w : Fin 8) (v : Word), busyBit s.status = false →
    (∀ b, b < 32 → (s.busRead (.mag k w)).1.getLsbD b = s.m[k].getLsbD (32 * w.val + b)) ∧
    s.busWrite (.mag k w) v = { s with m := (s.busWrite (.mag k w) v).m } ∧
    (∀ j, j ≠ k → (s.busWrite (.mag k w) v).m[j] = s.m[j]) ∧
    ∀ i, i < 256 → (s.busWrite (.mag k w) v).m[k].getLsbD i =
      if i / 32 = w.val then v.getLsbD (i % 32) else s.m[k].getLsbD i

/-- R46: the reserved offsets read 0, ignore writes, have no side effect and do not set WBUSY; reserved bits of defined
registers read as zero in every state that has the invariant. -/
def Obligations.ReservedOffsetsAndBits : Prop :=
  (∀ (s : State) (off : Nat) (v : Word), off % 4 = 0 → off = 0x01C ∨ (0x030 ≤ off ∧ off ≤ 0x0FF) ∨
      (0x180 ≤ off ∧ off ≤ 0x3FF) ∨ (0x600 ≤ off ∧ off ≤ 0xFFF) →
    s.busRead (regAt off) = (0#32, s) ∧ s.busWrite (regAt off) v = s) ∧
  ∀ (s : State) (k : DIdx), StateInv s → s.readReg .ctrl &&& 0xFFFFFFFE#32 = 0#32 ∧
    s.readReg .status &&& 0xFFFFF0F0#32 = 0#32 ∧ s.readReg .scale &&& 0xFFFF0000#32 = 0#32 ∧
    s.readReg .rscale &&& 0xFFFFFF00#32 = 0#32 ∧ s.readReg (.len k) &&& 0xFFFFFE00#32 = 0#32

/-- R47: a host read changes no state of the core (only the model's count of draws can move), and returns the register's
value unless it is a data register in the BUSY window. -/
def Obligations.ReadsHaveNoSideEffect : Prop :=
  ∀ (s : State) (r : Reg), (s.busRead r).2 = { s with draws := (s.busRead r).2.draws } ∧
    (busyBit s.status = false ∨ r.isData = false → s.busRead r = (s.readReg r, s))

/-- R48: while BUSY = 1 a read of a word of M, of a window word, of LEN or of RSCALE returns a free value, a new one for
each read; ID, CTRL, STATUS, CMD, SCALE, CFG and reserved offsets read as usual. (How the value is left free is log
entry 4.) -/
def Obligations.BusyReadsOfDataAreFree : Prop :=
  ∀ s : State, busyBit s.status = true →
    (∀ (k : Fin 4) (w : Fin 8) (x : Fin 32) (r : Reg), r = .mag k w ∨ r = .window k x ∨ r = .len k ∨ r = .rscale →
      s.busRead r = (Config.freeWord s.draws, { s with draws := s.draws + 1 })) ∧
    s.busRead .id = (0x44430100#32, s) ∧ s.busRead .ctrl = (s.ctrl, s) ∧ s.busRead .status = (s.status, s) ∧
    s.busRead .cmd = (s.cmd, s) ∧ s.busRead .scale = (s.scale, s) ∧ s.busRead .cfg = (0x444C0100#32, s) ∧
    s.busRead .reserved = (0#32, s)

/-- R49: while BUSY = 1 a write to CMD, SCALE, LEN, M or a window word is ignored and sets WBUSY and nothing else; CTRL
and STATUS are written as usual; a write to ID, CFG, RSCALE or a reserved offset is ignored and does not set WBUSY. -/
def Obligations.BusyWritesAreIgnored : Prop :=
  ∀ (s : State) (v : Word), busyBit s.status = true →
    (∀ (k : Fin 4) (w : Fin 8) (x : Fin 32) (r : Reg),
      r = .cmd ∨ r = .scale ∨ r = .len k ∨ r = .mag k w ∨ r = .window k x →
      s.busWrite r v = { s with status := (s.busWrite r v).status } ∧ wbusyBit (s.busWrite r v).status = true ∧
      ∀ i, i ≠ 3 → (s.busWrite r v).status.getLsbD i = s.status.getLsbD i) ∧
    s.busWrite .ctrl v = s.writeReg .ctrl v ∧ s.busWrite .status v = s.writeReg .status v ∧
    ∀ r : Reg, r = .id ∨ r = .cfg ∨ r = .rscale ∨ r = .reserved → s.busWrite r v = s

/-- R41: an access that is not 32 bits wide or not at a multiple of 4 has no step, idle or in a BUSY window. (When the
host has its turn in a BUSY window is log entry 5, that such an access is refused log entry 7.) -/
def Obligations.UnsupportedAccessRefused : Prop :=
  ∀ (s u : State) (rest : List HostOp) (width off : Nat) (v : Word),
    HostTurn s rest u → width ≠ 32 ∨ off % 4 ≠ 0 →
    (s.host = .read width off :: rest → step s = .refused .unsupportedAccess) ∧
    (s.host = .write width off v :: rest → step s = .refused .unsupportedAccess)

/-- A host access that the interface has, idle or in a BUSY window: a read appends to what the host has received the value
that the read of the register at its offset returns, a write is the write of that register (R40, R44, R47); with BUSY = 0
these are the register's value and the register's write, and with BUSY = 1 a write to a guarded register sets WBUSY and
changes nothing else (R49). Beyond the 4096 bytes there is no access (the model's fault, log entry 7). (When the host has
its turn in a BUSY window is log entry 5.) -/
def Obligations.HostAccessReachesRegister : Prop :=
  ∀ (s u : State) (rest : List HostOp) (off : Nat) (v : Word), HostTurn s rest u → off % 4 = 0 →
    (4096 ≤ off → s.host = .read 32 off :: rest ∨ s.host = .write 32 off v :: rest →
      step s = .fault .outsideRegisterSpace) ∧
    (off < 4096 → s.host = .read 32 off :: rest →
      step s = .next { (u.busRead (regAt off)).2 with responses := (u.busRead (regAt off)).1 :: s.responses } ∧
      (busyBit s.status = false → step s = .next { u with responses := s.readReg (regAt off) :: s.responses })) ∧
    (off < 4096 → s.host = .write 32 off v :: rest →
      step s = .next (u.busWrite (regAt off) v) ∧
      (busyBit s.status = false → step s = .next (u.writeReg (regAt off) v)) ∧
      (busyBit s.status = true → (regAt off).isGuarded = true →
        step s = .next { u with status := s.status ||| 0x00000008#32 }))

/-- R186, R187: in a BUSY window, a host operation within the discipline loses no write and draws no unspecified value:
WBUSY does not become 1 and the count of draws does not move. -/
def Obligations.DisciplinedHostLosesNothing : Prop :=
  ∀ (s t : State) (op : HostOp) (rest : List HostOp) (f : InFlight) (n : Nat), StateInv s →
    s.inFlight = some f → f.wait = n + 1 → s.host = op :: rest → op.disciplined = true → step s = .next t →
      (wbusyBit t.status = true → wbusyBit s.status = true) ∧ t.draws = s.draws ∧ t.m = s.m ∧ t.d = s.d

/-! ### Interrupt and RST -/

/-- R170: IRQ is CTRL.IE and STATUS.DONE: after a completion, with or without error, it is CTRL.IE; a write of 1 to DONE
and the acceptance of the next command clear it. -/
def Obligations.IrqFollowsDone : Prop :=
  (∀ s : State, s.irq = (ieBit s.ctrl && doneBit s.status)) ∧
  (∀ (i : Instr) (s t : State), exec i s = .next t → t.irq = ieBit s.ctrl) ∧
  (∀ (s : State) (v : Word), v.getLsbD 1 = true → (s.busWrite .status v).irq = false) ∧
  ∀ (s : State) (w : Word) (n : Nat), (s.accept w n).irq = false

/-- R180: RST, at any time, abandons the command in flight and puts the control registers at the values of R39, so the
machine has its invariant again; the host's side is its own. The step whose host operation is RST answers that state,
idle or in a BUSY window. (M, D and LEN are unspecified, log entry 2; when the host has its turn is log entry 5.) -/
def Obligations.RstResetsControl : Prop :=
  (∀ (s u : State) (rest : List HostOp), HostTurn s rest u → s.host = .rst :: rest → step s = .next u.assertRst) ∧
  ∀ s : State, s.assertRst.inFlight = none ∧ s.assertRst.ctrl = 0#32 ∧ s.assertRst.status = 0#32 ∧
    s.assertRst.cmd = 0#32 ∧ s.assertRst.scale = 0#32 ∧ s.assertRst.rscale = 0#32 ∧ s.assertRst.irq = false ∧
    s.assertRst.host = s.host ∧ s.assertRst.responses = s.responses ∧ StateInv s.assertRst

/-- R181: after reset the core is idle, the interrupt is masked, and the next host write to CMD is accepted: right after
reset, and after RST in a run. -/
def Obligations.IdleAfterReset : Prop :=
  ∀ s : State, s = State.reset ∨ (∃ u : State, s = u.assertRst) →
    busyBit s.status = false ∧ s.inFlight = none ∧ ieBit s.ctrl = false ∧ s.irq = false ∧
    ∀ w, (s.busWrite .cmd w).cmd = w ∧ busyBit (s.busWrite .cmd w).status = true ∧
      (s.busWrite .cmd w).inFlight.isSome = true

/-! ### The host operations WAIT and GETD -/

/-- WAIT (R72): while BUSY = 1 its step reads STATUS and the operation stays pending; with BUSY = 0 it ends, and the last
STATUS read is its value. (That only this last read is recorded is the model's choice, log entry 6; when the host has its
turn in a BUSY window is log entry 5.) -/
def Obligations.WaitEndsWhenNotBusy : Prop :=
  ∀ (s u : State) (rest : List HostOp), HostTurn s rest u → s.host = .wait :: rest →
    (busyBit s.status = true → step s = .next { u with host := .wait :: rest }) ∧
    (busyBit s.status = false → step s = .next { u with responses := s.status :: s.responses })

/-- GETD (R72): its step reads LENk, and the reads of the window words that cover cells 0 to LEN − 1 are then the host's
next operations. With BUSY = 0 the value read is LEN; with BUSY = 1 it is a free value, of which the LEN field counts
(R48; log entry 4). (That at most the 32 words there are get read is the model's choice, log entry 6; when the host has
its turn in a BUSY window is log entry 5.) -/
def Obligations.GetdReadsLenThenWindows : Prop :=
  ∀ (s u : State) (rest : List HostOp) (k : DIdx), HostTurn s rest u → s.host = .getd k :: rest →
    (busyBit s.status = false →
      step s = .next { u with
        host := windowReads k s.d[k].len.toNat ++ rest
        responses := s.d[k].len.setWidth 32 :: s.responses }) ∧
    (busyBit s.status = true →
      step s = .next { u with
        host := windowReads k ((Config.freeWord s.draws).toNat % 512) ++ rest
        responses := Config.freeWord s.draws :: s.responses
        draws := s.draws + 1 })
end

