-- ==== Sys2Proof/Laws/Digits.lean ====
section
/-! SUPPORT. The arithmetic of digit sequences against the library's digits. -/

namespace Sys2Proof.Machine

/-- The loop of R81 computes the library's digits, given rounds enough. -/
theorem digitLoop_eq_digits : ∀ (fuel x : Nat), x ≤ fuel → digitLoop fuel x = Nat.digits 10 x
  | 0, x, h => by
    obtain rfl : x = 0 := by omega
    rfl
  | fuel + 1, x, h => by
    by_cases hx : x = 0
    · subst hx; simp [digitLoop]
    · rw [digitLoop, if_neg hx, Nat.digits_def' (by omega) (by omega),
        digitLoop_eq_digits fuel (x / 10) (by omega)]

theorem value_append (a b : DigitSeq) : value (a ++ b) = value a * 10 ^ b.length + value b := by
  induction a with
  | nil => simp [value]
  | cons x xs ih => simp only [List.cons_append, value, ih, List.length_append, pow_add]; ring

@[simp] theorem length_zeros (k : Nat) : (zeros k).length = k := by simp [zeros]

@[simp] theorem value_zeros (k : Nat) : value (zeros k) = 0 := by
  induction k with
  | zero => rfl
  | succ k ih => simpa [zeros, List.replicate_succ, value] using ih

/-- The value of a sequence of digits is below 10 to its length. -/
theorem value_lt (q : DigitSeq) (h : allDigits q = true) : value q < 10 ^ q.length := by
  induction q with
  | nil => simp [value]
  | cons x xs ih =>
    simp only [allDigits, List.all_cons, Bool.and_eq_true, decide_eq_true_eq] at h
    have := ih h.2
    simp only [value, List.length_cons, pow_succ]
    nlinarith [h.1]

/-- R15 in the library's terms. -/
theorem value_eq_decimalValue (q : DigitSeq) : value q = decimalValue q := by
  induction q with
  | nil => rfl
  | cons x xs ih =>
    simp only [decimalValue] at ih
    simp only [value, decimalValue, List.reverse_cons, Nat.ofDigits_append, List.length_reverse, Nat.ofDigits_singleton, ih]
    ring

/-- The library's decimal digits of a number are digits. -/
theorem le_nine_of_mem_decimal {x y : Nat} (h : y ∈ decimal x) : y ≤ 9 := by
  unfold decimal at h
  split at h
  · simp_all
  · have := Nat.digits_lt_base (b := 10) (by omega) (List.mem_reverse.mp h)
    omega

/-- A number has at most k decimal digits exactly when it is below 10^k (k at least 1). -/
theorem length_decimal_le_iff (x k : Nat) (hk : 1 ≤ k) : (decimal x).length ≤ k ↔ x < 10 ^ k := by
  unfold decimal
  split
  · next h => subst h; simp [hk]
  · rw [List.length_reverse]; exact Nat.digits_length_le_iff (by omega) x

theorem decimal_ne_nil (x : Nat) : decimal x ≠ [] := by
  unfold decimal
  split
  · simp
  · next h => simpa [List.reverse_eq_nil_iff, Nat.digits_eq_nil_iff_eq_zero] using h

/-- Every sequence that `align` answers has a length given by the two scales alone (R90). -/
theorem length_align (q : DigitSeq) (src tgt : Nat) :
    (align q src tgt).length =
      if src ≤ tgt then q.length + (tgt - src) else max 1 (q.length - (src - tgt)) := by
  unfold align
  split_ifs <;> (try simp) <;> omega

end Sys2Proof.Machine
end

