-- ==== Sys2Proof/Laws/Flags.lean ====
section
/-! SUPPORT. What every update of STATUS does to each of its bits, and what the kept bits of a masked register are. -/

namespace Sys2Proof.Machine

theorem getLsbD_setBit (i j : Nat) (b : Bool) (v : Word) :
    (setBit i b v).getLsbD j = if j = i ∧ j < 32 then b else v.getLsbD j := by
  by_cases hj : j < 32
  · by_cases hi : j = i
    · subst hi
      cases b <;> simp [setBit, hj]
    · have : ¬(i ≤ j ∧ j - i = 0) := by omega
      cases b <;> simp [setBit, hj, hi] <;> omega
  · simp [hj, BitVec.getLsbD_of_ge _ _ (Nat.le_of_not_lt hj)]

theorem getLsbD_ecodeMask (j : Nat) : (0xF00#32).getLsbD j = decide (8 ≤ j ∧ j < 12) := by
  by_cases hj : j < 32
  · interval_cases j <;> decide
  · rw [BitVec.getLsbD_of_ge _ _ (Nat.le_of_not_lt hj)]; simp; omega

theorem getLsbD_setEcode (e : BitVec 4) (st : Word) (j : Nat) :
    (setEcode e st).getLsbD j = if 8 ≤ j ∧ j < 12 then e.getLsbD (j - 8) else st.getLsbD j := by
  by_cases hj : j < 32
  · simp only [setEcode, BitVec.getLsbD_or, BitVec.getLsbD_and, BitVec.getLsbD_not, getLsbD_ecodeMask,
      BitVec.getLsbD_shiftLeft, BitVec.getLsbD_setWidth, hj]
    by_cases h : 8 ≤ j ∧ j < 12
    · have : ¬ j < 8 := by omega
      have : j - 8 < 32 := by omega
      simp [*]
    · by_cases h8 : j < 8
      · have : ¬ 8 ≤ j := by omega
        simp [h8, this]
      · have h12 : ¬ j < 12 := by omega
        have : e.getLsbD (j - 8) = false := BitVec.getLsbD_of_ge _ _ (by omega)
        simp [h12, this]
  · have h : ¬(8 ≤ j ∧ j < 12) := by omega
    simp [h, BitVec.getLsbD_of_ge _ _ (Nat.le_of_not_lt hj)]

theorem getLsbD_keepLow (n j : Nat) (v : Word) (hn : n < 32) :
    (keepLow n v).getLsbD j = (decide (j < n) && v.getLsbD j) := by
  by_cases hj : j < 32
  · have h : (1#32 <<< n - 1#32).getLsbD j = decide (j < n) := by
      have h2 : (1#32 <<< n - 1#32).toNat = 2 ^ n - 1 := by
        have hp : 2 ^ n < 2 ^ 32 := Nat.pow_lt_pow_right (by omega) hn
        have h1 : (1#32 <<< n).toNat = 2 ^ n := by
          rw [BitVec.toNat_shiftLeft]; simp [Nat.shiftLeft_eq]; omega
        have hpos : 0 < 2 ^ n := Nat.two_pow_pos n
        rw [BitVec.toNat_sub, h1]
        simp
        omega
      rw [BitVec.getLsbD, h2, Nat.testBit_two_pow_sub_one]
    simp [keepLow, h, Bool.and_comm]
  · simp [keepLow, BitVec.getLsbD_of_ge _ _ (Nat.le_of_not_lt hj)]

theorem ecodeField_eq_of_bits {a b : Word} (h : ∀ j, 8 ≤ j → j < 12 → a.getLsbD j = b.getLsbD j) :
    ecodeField a = ecodeField b := by
  apply BitVec.eq_of_getLsbD_eq
  intro i hi
  simp only [ecodeField, BitVec.getLsbD_extractLsb', hi, decide_true, Bool.true_and]
  exact h _ (by omega) (by omega)

@[simp] theorem ecodeField_setEcode (e : BitVec 4) (st : Word) : ecodeField (setEcode e st) = e := by
  apply BitVec.eq_of_getLsbD_eq
  intro i hi
  have h : 8 ≤ 8 + i ∧ 8 + i < 12 := by omega
  simp [ecodeField, getLsbD_setEcode, hi, h]

theorem ecodeField_setBit (i : Nat) (b : Bool) (st : Word) (hi : i < 8) : ecodeField (setBit i b st) = ecodeField st :=
  ecodeField_eq_of_bits fun j hj _ => by rw [getLsbD_setBit, if_neg (by omega)]

/-! ### Acceptance (R34) -/

theorem getLsbD_statusAccept (st : Word) (j : Nat) :
    (statusAccept st).getLsbD j =
      if j = 0 then true else if j = 1 ∨ j = 2 ∨ (8 ≤ j ∧ j < 12) then false else st.getLsbD j := by
  simp only [statusAccept, getLsbD_setEcode, getLsbD_setBit]
  split_ifs <;> first | rfl | omega | simp

@[simp] theorem busyBit_statusAccept (st : Word) : busyBit (statusAccept st) = true := by
  simp only [busyBit, getLsbD_statusAccept]
  simp
@[simp] theorem doneBit_statusAccept (st : Word) : doneBit (statusAccept st) = false := by
  simp only [doneBit, getLsbD_statusAccept]
  simp
@[simp] theorem errBit_statusAccept (st : Word) : errBit (statusAccept st) = false := by
  simp only [errBit, getLsbD_statusAccept]
  simp
@[simp] theorem wbusyBit_statusAccept (st : Word) : wbusyBit (statusAccept st) = wbusyBit st := by
  simp only [wbusyBit, getLsbD_statusAccept]
  simp
@[simp] theorem ecodeField_statusAccept (st : Word) : ecodeField (statusAccept st) = 0#4 := by
  simp [statusAccept]

/-! ### Completion (R35) -/

theorem getLsbD_statusDone (st : Word) (j : Nat) :
    (statusDone st).getLsbD j = if j = 0 then false else if j = 1 then true else st.getLsbD j := by
  simp only [statusDone, getLsbD_setBit]
  split_ifs <;> first | rfl | omega

@[simp] theorem busyBit_statusDone (st : Word) : busyBit (statusDone st) = false := by
  simp only [busyBit, getLsbD_statusDone]
  simp
@[simp] theorem doneBit_statusDone (st : Word) : doneBit (statusDone st) = true := by
  simp only [doneBit, getLsbD_statusDone]
  simp
@[simp] theorem errBit_statusDone (st : Word) : errBit (statusDone st) = errBit st := by
  simp only [errBit, getLsbD_statusDone]
  simp
@[simp] theorem wbusyBit_statusDone (st : Word) : wbusyBit (statusDone st) = wbusyBit st := by
  simp only [wbusyBit, getLsbD_statusDone]
  simp
@[simp] theorem ecodeField_statusDone (st : Word) : ecodeField (statusDone st) = ecodeField st := by
  simp [statusDone, ecodeField_setBit]

theorem getLsbD_statusError (e : ErrCode) (st : Word) (j : Nat) :
    (statusError e st).getLsbD j =
      if j = 0 then false else if j = 1 ∨ j = 2 then true
      else if 8 ≤ j ∧ j < 12 then e.code.getLsbD (j - 8) else st.getLsbD j := by
  simp only [statusError, getLsbD_setEcode, getLsbD_setBit, getLsbD_statusDone]
  split_ifs <;> first | rfl | omega

@[simp] theorem busyBit_statusError (e : ErrCode) (st : Word) : busyBit (statusError e st) = false := by
  simp only [busyBit, getLsbD_statusError]
  simp
@[simp] theorem doneBit_statusError (e : ErrCode) (st : Word) : doneBit (statusError e st) = true := by
  simp only [doneBit, getLsbD_statusError]
  simp
@[simp] theorem errBit_statusError (e : ErrCode) (st : Word) : errBit (statusError e st) = true := by
  simp only [errBit, getLsbD_statusError]
  simp
@[simp] theorem wbusyBit_statusError (e : ErrCode) (st : Word) : wbusyBit (statusError e st) = wbusyBit st := by
  simp only [wbusyBit, getLsbD_statusError]
  simp
@[simp] theorem ecodeField_statusError (e : ErrCode) (st : Word) : ecodeField (statusError e st) = e.code := by
  simp [statusError]

/-! ### Host writes (R36, R49) -/

theorem getLsbD_statusWrite (v st : Word) (j : Nat) :
    (statusWrite v st).getLsbD j = (st.getLsbD j && !(decide (1 ≤ j ∧ j ≤ 3) && v.getLsbD j)) := by
  by_cases hj : j < 32
  · have h : (0x0000000E#32).getLsbD j = decide (1 ≤ j ∧ j ≤ 3) := by interval_cases j <;> decide
    simp only [statusWrite, BitVec.getLsbD_and, BitVec.getLsbD_not, hj, decide_true, Bool.true_and, h]
    rw [Bool.and_comm (v.getLsbD j)]
  · simp [statusWrite, BitVec.getLsbD_of_ge _ _ (Nat.le_of_not_lt hj)]

@[simp] theorem busyBit_statusWrite (v st : Word) : busyBit (statusWrite v st) = busyBit st := by
  simp only [busyBit, getLsbD_statusWrite]
  simp
@[simp] theorem doneBit_statusWrite (v st : Word) :
    doneBit (statusWrite v st) = (doneBit st && !v.getLsbD 1) := by
  simp only [doneBit, getLsbD_statusWrite]
  simp
@[simp] theorem errBit_statusWrite (v st : Word) :
    errBit (statusWrite v st) = (errBit st && !v.getLsbD 2) := by
  simp only [errBit, getLsbD_statusWrite]
  simp
@[simp] theorem wbusyBit_statusWrite (v st : Word) :
    wbusyBit (statusWrite v st) = (wbusyBit st && !v.getLsbD 3) := by
  simp only [wbusyBit, getLsbD_statusWrite]
  simp
@[simp] theorem ecodeField_statusWrite (v st : Word) : ecodeField (statusWrite v st) = ecodeField st :=
  ecodeField_eq_of_bits fun j hj _ => by
    have h : ¬(1 ≤ j ∧ j ≤ 3) := by omega
    simp [getLsbD_statusWrite, h]

theorem getLsbD_statusLost (st : Word) (j : Nat) :
    (statusLost st).getLsbD j = if j = 3 then true else st.getLsbD j := by
  simp only [statusLost, getLsbD_setBit]
  split_ifs <;> first | rfl | omega

@[simp] theorem busyBit_statusLost (st : Word) : busyBit (statusLost st) = busyBit st := by
  simp only [busyBit, getLsbD_statusLost]
  simp
@[simp] theorem doneBit_statusLost (st : Word) : doneBit (statusLost st) = doneBit st := by
  simp only [doneBit, getLsbD_statusLost]
  simp
@[simp] theorem errBit_statusLost (st : Word) : errBit (statusLost st) = errBit st := by
  simp only [errBit, getLsbD_statusLost]
  simp
@[simp] theorem wbusyBit_statusLost (st : Word) : wbusyBit (statusLost st) = true := by
  simp only [wbusyBit, getLsbD_statusLost]
  simp
@[simp] theorem ecodeField_statusLost (st : Word) : ecodeField (statusLost st) = ecodeField st := by
  simp [statusLost, ecodeField_setBit]

/-! ### Error codes (R160) -/

theorem ErrCode.code_ne_zero (e : ErrCode) : e.code ≠ 0#4 := by cases e <;> decide

theorem ErrCode.code_le (e : ErrCode) : e.code.toNat ≤ 8 := by cases e <;> decide

theorem ErrCode.code_injective {e e' : ErrCode} (h : e.code = e'.code) : e = e' := by
  cases e <;> cases e' <;> first | rfl | exact absurd h (by decide)

/-- A word has no bit of the mask exactly when each of the mask's bits is 0 in it. -/
theorem and_eq_zero_iff_bits {v mask : Word} :
    v &&& mask = 0#32 ↔ ∀ j, j < 32 → mask.getLsbD j = true → v.getLsbD j = false := by
  constructor
  · intro h j hj hm
    simpa [hm] using congrArg (·.getLsbD j) h
  · intro h
    apply BitVec.eq_of_getLsbD_eq
    intro j hj
    have := h j hj
    cases hm : mask.getLsbD j <;> simp_all

/-- The reserved bits of STATUS (R33). -/
theorem getLsbD_statusReserved (j : Nat) :
    (0xFFFFF0F0#32).getLsbD j = decide (j < 32 ∧ ¬(j < 4 ∨ (8 ≤ j ∧ j < 12))) := by
  by_cases h : j < 32
  · interval_cases j <;> decide
  · rw [BitVec.getLsbD_of_ge _ _ (by omega)]; simp [h]

end Sys2Proof.Machine
end

