-- ==== Sys2Proof/Laws/State.lean ====
section
/-! SUPPORT. One lemma per field per update of State, all by rfl, so that no later proof unfolds a record update. -/

namespace Sys2Proof.Machine

@[simp] theorem State.writeMag_m (s : State) (k : MIdx) (v : Mag) : (s.writeMag k v).m = s.m.set k v := rfl
@[simp] theorem State.writeMag_d (s : State) (k : MIdx) (v : Mag) : (s.writeMag k v).d = s.d := rfl
@[simp] theorem State.writeMag_ctrl (s : State) (k : MIdx) (v : Mag) : (s.writeMag k v).ctrl = s.ctrl := rfl
@[simp] theorem State.writeMag_status (s : State) (k : MIdx) (v : Mag) : (s.writeMag k v).status = s.status := rfl
@[simp] theorem State.writeMag_cmd (s : State) (k : MIdx) (v : Mag) : (s.writeMag k v).cmd = s.cmd := rfl
@[simp] theorem State.writeMag_scale (s : State) (k : MIdx) (v : Mag) : (s.writeMag k v).scale = s.scale := rfl
@[simp] theorem State.writeMag_rscale (s : State) (k : MIdx) (v : Mag) : (s.writeMag k v).rscale = s.rscale := rfl
@[simp] theorem State.writeMag_inFlight (s : State) (k : MIdx) (v : Mag) : (s.writeMag k v).inFlight = s.inFlight := rfl
@[simp] theorem State.writeMag_host (s : State) (k : MIdx) (v : Mag) : (s.writeMag k v).host = s.host := rfl
@[simp] theorem State.writeMag_responses (s : State) (k : MIdx) (v : Mag) : (s.writeMag k v).responses = s.responses := rfl
@[simp] theorem State.writeMag_draws (s : State) (k : MIdx) (v : Mag) : (s.writeMag k v).draws = s.draws := rfl

@[simp] theorem State.writeSeq_m (s : State) (k : DIdx) (q : DigitSeq) : (s.writeSeq k q).m = s.m := rfl
@[simp] theorem State.writeSeq_d (s : State) (k : DIdx) (q : DigitSeq) : (s.writeSeq k q).d = s.d.set k (DigitReg.ofSeq q s.draws) := rfl
@[simp] theorem State.writeSeq_ctrl (s : State) (k : DIdx) (q : DigitSeq) : (s.writeSeq k q).ctrl = s.ctrl := rfl
@[simp] theorem State.writeSeq_status (s : State) (k : DIdx) (q : DigitSeq) : (s.writeSeq k q).status = s.status := rfl
@[simp] theorem State.writeSeq_cmd (s : State) (k : DIdx) (q : DigitSeq) : (s.writeSeq k q).cmd = s.cmd := rfl
@[simp] theorem State.writeSeq_scale (s : State) (k : DIdx) (q : DigitSeq) : (s.writeSeq k q).scale = s.scale := rfl
@[simp] theorem State.writeSeq_rscale (s : State) (k : DIdx) (q : DigitSeq) : (s.writeSeq k q).rscale = s.rscale := rfl
@[simp] theorem State.writeSeq_inFlight (s : State) (k : DIdx) (q : DigitSeq) : (s.writeSeq k q).inFlight = s.inFlight := rfl
@[simp] theorem State.writeSeq_host (s : State) (k : DIdx) (q : DigitSeq) : (s.writeSeq k q).host = s.host := rfl
@[simp] theorem State.writeSeq_responses (s : State) (k : DIdx) (q : DigitSeq) : (s.writeSeq k q).responses = s.responses := rfl
@[simp] theorem State.writeSeq_draws (s : State) (k : DIdx) (q : DigitSeq) : (s.writeSeq k q).draws = s.draws + 1 := rfl

@[simp] theorem State.writeRscale_m (s : State) (rs : Nat) : (s.writeRscale rs).m = s.m := rfl
@[simp] theorem State.writeRscale_d (s : State) (rs : Nat) : (s.writeRscale rs).d = s.d := rfl
@[simp] theorem State.writeRscale_ctrl (s : State) (rs : Nat) : (s.writeRscale rs).ctrl = s.ctrl := rfl
@[simp] theorem State.writeRscale_status (s : State) (rs : Nat) : (s.writeRscale rs).status = s.status := rfl
@[simp] theorem State.writeRscale_cmd (s : State) (rs : Nat) : (s.writeRscale rs).cmd = s.cmd := rfl
@[simp] theorem State.writeRscale_scale (s : State) (rs : Nat) : (s.writeRscale rs).scale = s.scale := rfl
@[simp] theorem State.writeRscale_rscale (s : State) (rs : Nat) : (s.writeRscale rs).rscale = keepLow 8 (BitVec.ofNat 32 rs) := rfl
@[simp] theorem State.writeRscale_inFlight (s : State) (rs : Nat) : (s.writeRscale rs).inFlight = s.inFlight := rfl
@[simp] theorem State.writeRscale_host (s : State) (rs : Nat) : (s.writeRscale rs).host = s.host := rfl
@[simp] theorem State.writeRscale_responses (s : State) (rs : Nat) : (s.writeRscale rs).responses = s.responses := rfl
@[simp] theorem State.writeRscale_draws (s : State) (rs : Nat) : (s.writeRscale rs).draws = s.draws := rfl

@[simp] theorem State.completeError_m (s : State) (e : ErrCode) : (s.completeError e).m = s.m := rfl
@[simp] theorem State.completeError_d (s : State) (e : ErrCode) : (s.completeError e).d = s.d := rfl
@[simp] theorem State.completeError_ctrl (s : State) (e : ErrCode) : (s.completeError e).ctrl = s.ctrl := rfl
@[simp] theorem State.completeError_status (s : State) (e : ErrCode) : (s.completeError e).status = statusError e s.status := rfl
@[simp] theorem State.completeError_cmd (s : State) (e : ErrCode) : (s.completeError e).cmd = s.cmd := rfl
@[simp] theorem State.completeError_scale (s : State) (e : ErrCode) : (s.completeError e).scale = s.scale := rfl
@[simp] theorem State.completeError_rscale (s : State) (e : ErrCode) : (s.completeError e).rscale = s.rscale := rfl
@[simp] theorem State.completeError_inFlight (s : State) (e : ErrCode) : (s.completeError e).inFlight = none := rfl
@[simp] theorem State.completeError_host (s : State) (e : ErrCode) : (s.completeError e).host = s.host := rfl
@[simp] theorem State.completeError_responses (s : State) (e : ErrCode) : (s.completeError e).responses = s.responses := rfl
@[simp] theorem State.completeError_draws (s : State) (e : ErrCode) : (s.completeError e).draws = s.draws := rfl

@[simp] theorem State.accept_m (s : State) (w : Word) (n : Nat) : (s.accept w n).m = s.m := rfl
@[simp] theorem State.accept_d (s : State) (w : Word) (n : Nat) : (s.accept w n).d = s.d := rfl
@[simp] theorem State.accept_ctrl (s : State) (w : Word) (n : Nat) : (s.accept w n).ctrl = s.ctrl := rfl
@[simp] theorem State.accept_status (s : State) (w : Word) (n : Nat) : (s.accept w n).status = statusAccept s.status := rfl
@[simp] theorem State.accept_cmd (s : State) (w : Word) (n : Nat) : (s.accept w n).cmd = w := rfl
@[simp] theorem State.accept_scale (s : State) (w : Word) (n : Nat) : (s.accept w n).scale = s.scale := rfl
@[simp] theorem State.accept_rscale (s : State) (w : Word) (n : Nat) : (s.accept w n).rscale = s.rscale := rfl
@[simp] theorem State.accept_inFlight (s : State) (w : Word) (n : Nat) : (s.accept w n).inFlight = some (s.flight w n) := rfl
@[simp] theorem State.accept_host (s : State) (w : Word) (n : Nat) : (s.accept w n).host = s.host := rfl
@[simp] theorem State.accept_responses (s : State) (w : Word) (n : Nat) : (s.accept w n).responses = s.responses := rfl
@[simp] theorem State.accept_draws (s : State) (w : Word) (n : Nat) : (s.accept w n).draws = s.draws := rfl

@[simp] theorem State.acceptDrawn_m (s : State) (w : Word) : (s.acceptDrawn w).m = s.m := rfl
@[simp] theorem State.acceptDrawn_d (s : State) (w : Word) : (s.acceptDrawn w).d = s.d := rfl
@[simp] theorem State.acceptDrawn_ctrl (s : State) (w : Word) : (s.acceptDrawn w).ctrl = s.ctrl := rfl
@[simp] theorem State.acceptDrawn_status (s : State) (w : Word) : (s.acceptDrawn w).status = statusAccept s.status := rfl
@[simp] theorem State.acceptDrawn_cmd (s : State) (w : Word) : (s.acceptDrawn w).cmd = w := rfl
@[simp] theorem State.acceptDrawn_scale (s : State) (w : Word) : (s.acceptDrawn w).scale = s.scale := rfl
@[simp] theorem State.acceptDrawn_rscale (s : State) (w : Word) : (s.acceptDrawn w).rscale = s.rscale := rfl
@[simp] theorem State.acceptDrawn_inFlight (s : State) (w : Word) : (s.acceptDrawn w).inFlight = some (s.flight w (Config.latency s.draws)) := rfl
@[simp] theorem State.acceptDrawn_host (s : State) (w : Word) : (s.acceptDrawn w).host = s.host := rfl
@[simp] theorem State.acceptDrawn_responses (s : State) (w : Word) : (s.acceptDrawn w).responses = s.responses := rfl
@[simp] theorem State.acceptDrawn_draws (s : State) (w : Word) : (s.acceptDrawn w).draws = s.draws + 1 := rfl

@[simp] theorem State.tick_m (s : State) (f : InFlight) (n : Nat) : (s.tick f n).m = s.m := rfl
@[simp] theorem State.tick_d (s : State) (f : InFlight) (n : Nat) : (s.tick f n).d = s.d := rfl
@[simp] theorem State.tick_ctrl (s : State) (f : InFlight) (n : Nat) : (s.tick f n).ctrl = s.ctrl := rfl
@[simp] theorem State.tick_status (s : State) (f : InFlight) (n : Nat) : (s.tick f n).status = s.status := rfl
@[simp] theorem State.tick_cmd (s : State) (f : InFlight) (n : Nat) : (s.tick f n).cmd = s.cmd := rfl
@[simp] theorem State.tick_scale (s : State) (f : InFlight) (n : Nat) : (s.tick f n).scale = s.scale := rfl
@[simp] theorem State.tick_rscale (s : State) (f : InFlight) (n : Nat) : (s.tick f n).rscale = s.rscale := rfl
@[simp] theorem State.tick_inFlight (s : State) (f : InFlight) (n : Nat) : (s.tick f n).inFlight = some { f with wait := n } := rfl
@[simp] theorem State.tick_host (s : State) (f : InFlight) (n : Nat) : (s.tick f n).host = s.host := rfl
@[simp] theorem State.tick_responses (s : State) (f : InFlight) (n : Nat) : (s.tick f n).responses = s.responses := rfl
@[simp] theorem State.tick_draws (s : State) (f : InFlight) (n : Nat) : (s.tick f n).draws = s.draws := rfl

@[simp] theorem State.respond_m (s : State) (v : Word) : (s.respond v).m = s.m := rfl
@[simp] theorem State.respond_d (s : State) (v : Word) : (s.respond v).d = s.d := rfl
@[simp] theorem State.respond_ctrl (s : State) (v : Word) : (s.respond v).ctrl = s.ctrl := rfl
@[simp] theorem State.respond_status (s : State) (v : Word) : (s.respond v).status = s.status := rfl
@[simp] theorem State.respond_cmd (s : State) (v : Word) : (s.respond v).cmd = s.cmd := rfl
@[simp] theorem State.respond_scale (s : State) (v : Word) : (s.respond v).scale = s.scale := rfl
@[simp] theorem State.respond_rscale (s : State) (v : Word) : (s.respond v).rscale = s.rscale := rfl
@[simp] theorem State.respond_inFlight (s : State) (v : Word) : (s.respond v).inFlight = s.inFlight := rfl
@[simp] theorem State.respond_host (s : State) (v : Word) : (s.respond v).host = s.host := rfl
@[simp] theorem State.respond_responses (s : State) (v : Word) : (s.respond v).responses = v :: s.responses := rfl
@[simp] theorem State.respond_draws (s : State) (v : Word) : (s.respond v).draws = s.draws := rfl

@[simp] theorem State.completeOk_m (s : State) (e : Effect) : (s.completeOk e).m = (s.apply e).m := rfl
@[simp] theorem State.completeOk_d (s : State) (e : Effect) : (s.completeOk e).d = (s.apply e).d := rfl
@[simp] theorem State.completeOk_ctrl (s : State) (e : Effect) : (s.completeOk e).ctrl = (s.apply e).ctrl := rfl
@[simp] theorem State.completeOk_status (s : State) (e : Effect) : (s.completeOk e).status = statusDone s.status := rfl
@[simp] theorem State.completeOk_cmd (s : State) (e : Effect) : (s.completeOk e).cmd = (s.apply e).cmd := rfl
@[simp] theorem State.completeOk_scale (s : State) (e : Effect) : (s.completeOk e).scale = (s.apply e).scale := rfl
@[simp] theorem State.completeOk_rscale (s : State) (e : Effect) : (s.completeOk e).rscale = (s.apply e).rscale := rfl
@[simp] theorem State.completeOk_inFlight (s : State) (e : Effect) : (s.completeOk e).inFlight = none := rfl
@[simp] theorem State.completeOk_host (s : State) (e : Effect) : (s.completeOk e).host = (s.apply e).host := rfl
@[simp] theorem State.completeOk_responses (s : State) (e : Effect) : (s.completeOk e).responses = (s.apply e).responses := rfl
@[simp] theorem State.completeOk_draws (s : State) (e : Effect) : (s.completeOk e).draws = (s.apply e).draws := rfl

@[simp] theorem State.assertRst_m (s : State) : s.assertRst.m = Vector.ofFn fun k => Config.freeMag s.draws k.val := rfl
@[simp] theorem State.assertRst_d (s : State) : s.assertRst.d = Vector.ofFn fun k => DigitReg.unspecified s.draws k := rfl
@[simp] theorem State.assertRst_ctrl (s : State) : s.assertRst.ctrl = 0#32 := rfl
@[simp] theorem State.assertRst_status (s : State) : s.assertRst.status = 0#32 := rfl
@[simp] theorem State.assertRst_cmd (s : State) : s.assertRst.cmd = 0#32 := rfl
@[simp] theorem State.assertRst_scale (s : State) : s.assertRst.scale = 0#32 := rfl
@[simp] theorem State.assertRst_rscale (s : State) : s.assertRst.rscale = 0#32 := rfl
@[simp] theorem State.assertRst_inFlight (s : State) : s.assertRst.inFlight = none := rfl
@[simp] theorem State.assertRst_host (s : State) : s.assertRst.host = s.host := rfl
@[simp] theorem State.assertRst_responses (s : State) : s.assertRst.responses = s.responses := rfl
@[simp] theorem State.assertRst_draws (s : State) : s.assertRst.draws = s.draws + 1 := rfl

@[simp] theorem State.apply_ctrl (s : State) (e : Effect) : (s.apply e).ctrl = s.ctrl := by cases e <;> rfl
@[simp] theorem State.apply_cmd (s : State) (e : Effect) : (s.apply e).cmd = s.cmd := by cases e <;> rfl
@[simp] theorem State.apply_scale (s : State) (e : Effect) : (s.apply e).scale = s.scale := by cases e <;> rfl
@[simp] theorem State.apply_status (s : State) (e : Effect) : (s.apply e).status = s.status := by cases e <;> rfl
@[simp] theorem State.apply_inFlight (s : State) (e : Effect) : (s.apply e).inFlight = s.inFlight := by cases e <;> rfl
@[simp] theorem State.apply_host (s : State) (e : Effect) : (s.apply e).host = s.host := by cases e <;> rfl
@[simp] theorem State.apply_responses (s : State) (e : Effect) : (s.apply e).responses = s.responses := by cases e <;> rfl

@[simp] theorem State.apply_none_m (s : State) : (s.apply .none).m = s.m := rfl
@[simp] theorem State.apply_none_d (s : State) : (s.apply .none).d = s.d := rfl
@[simp] theorem State.apply_none_rscale (s : State) : (s.apply .none).rscale = s.rscale := rfl
@[simp] theorem State.apply_none_draws (s : State) : (s.apply .none).draws = s.draws := rfl
@[simp] theorem State.apply_digits_m (s : State) (rd : DIdx) (q : DigitSeq) : (s.apply (.digits rd q)).m = s.m := rfl
@[simp] theorem State.apply_digits_d (s : State) (rd : DIdx) (q : DigitSeq) : (s.apply (.digits rd q)).d = s.d.set rd (DigitReg.ofSeq q s.draws) := rfl
@[simp] theorem State.apply_digits_rscale (s : State) (rd : DIdx) (q : DigitSeq) : (s.apply (.digits rd q)).rscale = s.rscale := rfl
@[simp] theorem State.apply_digits_draws (s : State) (rd : DIdx) (q : DigitSeq) : (s.apply (.digits rd q)).draws = s.draws + 1 := rfl
@[simp] theorem State.apply_mag_m (s : State) (rd : MIdx) (v : Mag) : (s.apply (.mag rd v)).m = s.m.set rd v := rfl
@[simp] theorem State.apply_mag_d (s : State) (rd : MIdx) (v : Mag) : (s.apply (.mag rd v)).d = s.d := rfl
@[simp] theorem State.apply_mag_rscale (s : State) (rd : MIdx) (v : Mag) : (s.apply (.mag rd v)).rscale = s.rscale := rfl
@[simp] theorem State.apply_mag_draws (s : State) (rd : MIdx) (v : Mag) : (s.apply (.mag rd v)).draws = s.draws := rfl
@[simp] theorem State.apply_decimal_m (s : State) (rd : MIdx) (v : Mag) (rs : Nat) : (s.apply (.decimal rd v rs)).m = s.m.set rd v := rfl
@[simp] theorem State.apply_decimal_d (s : State) (rd : MIdx) (v : Mag) (rs : Nat) : (s.apply (.decimal rd v rs)).d = s.d := rfl
@[simp] theorem State.apply_decimal_rscale (s : State) (rd : MIdx) (v : Mag) (rs : Nat) : (s.apply (.decimal rd v rs)).rscale = keepLow 8 (BitVec.ofNat 32 rs) := rfl
@[simp] theorem State.apply_decimal_draws (s : State) (rd : MIdx) (v : Mag) (rs : Nat) : (s.apply (.decimal rd v rs)).draws = s.draws := rfl

@[simp] theorem State.complete_ok (s : State) (e : Effect) : s.complete (.ok e) = s.completeOk e := rfl
@[simp] theorem State.complete_error (s : State) (e : ErrCode) : s.complete (.error e) = s.completeError e := rfl

@[simp] theorem State.snapshot_m (s : State) : s.snapshot.m = s.m := rfl
@[simp] theorem State.snapshot_d (s : State) : s.snapshot.d = s.d := rfl
@[simp] theorem State.snapshot_scale (s : State) : s.snapshot.scale = s.scale := rfl

@[simp] theorem State.flight_word (s : State) (w : Word) (n : Nat) : (s.flight w n).word = w := rfl
@[simp] theorem State.flight_src (s : State) (w : Word) (n : Nat) : (s.flight w n).src = s.snapshot := rfl
@[simp] theorem State.flight_wait (s : State) (w : Word) (n : Nat) : (s.flight w n).wait = n := rfl
@[simp] theorem State.flight_scratch (s : State) (w : Word) (n : Nat) :
    (s.flight w n).scratch = scratchOf w s.snapshot := rfl

/-- A command that was just accepted reads the registers as they stood (R37). -/
@[simp] theorem State.accept_sources (s : State) (w : Word) (n : Nat) : (s.accept w n).sources = s.snapshot := rfl

/-- A command in flight reads its acceptance snapshot (R37). -/
theorem State.sources_of_inFlight {s : State} {f : InFlight} (h : s.inFlight = some f) : s.sources = f.src := by
  simp [State.sources, h]

/-- Where nothing is in flight the sources are the registers (log entry 10). -/
theorem State.sources_of_idle {s : State} (h : s.inFlight = none) : s.sources = s.snapshot := by
  simp [State.sources, h]

end Sys2Proof.Machine
end

