-- ==== Sys2Proof/Laws/Ops.lean ====
section
/-! SUPPORT. What the shared operations of the engine can do: reading a source, writing a destination, a completion; and
every command as one completion. -/

namespace Sys2Proof.Machine

/-! ### Reading a digit register (R32) -/

theorem DigitReg.length_held (r : DigitReg) : r.held.length = min r.len.toNat 256 := by
  simp [DigitReg.held]

theorem DigitReg.held_getD (r : DigitReg) (i : Nat) (h : i < 256) (hi : i < r.len.toNat) :
    r.held.getD i 0 = (r.cells[i]).toNat := by
  have hl : i < r.held.length := by rw [DigitReg.length_held]; omega
  rw [List.getD_eq_getElem _ _ hl]
  simp [DigitReg.held]

/-- What a readable source holds is its cells within LEN. -/
theorem DigitReg.held_of_holds {r : DigitReg} {q : DigitSeq} (h : r.Holds q) (hq : q.length ≤ 256) : r.held = q := by
  obtain ⟨hlen, hc⟩ := h
  apply List.ext_getElem
  · rw [DigitReg.length_held]; omega
  · intro i h1 h2
    have hi : i < 256 := by omega
    rw [← List.getD_eq_getElem _ 0 h1, ← List.getD_eq_getElem _ 0 h2,
      DigitReg.held_getD r i hi (by omega), hc i hi h2]

theorem DigitReg.read_of_source {r : DigitReg} {q : DigitSeq} (h : r.Source q) : r.read = .ok q := by
  obtain ⟨hh, hl, hd⟩ := h
  have hlen : ¬ r.len.toNat > Config.dcap := by rw [hh.1]; simp [Config.dcap]; omega
  have hany : (r.held.any (· > 9)) = false := by
    rw [DigitReg.held_of_holds hh hl, List.any_eq_false]
    intro x hx
    have := hd x hx
    simp; omega
  rw [DigitReg.read, if_neg hlen, hany, DigitReg.held_of_holds hh hl]
  rfl

theorem DigitReg.read_of_len {r : DigitReg} (h : 256 < r.len.toNat) : r.read = .error .len := by
  simp [DigitReg.read, Config.dcap, h]

theorem DigitReg.read_of_badDigit {r : DigitReg} (h : r.BadDigit) : r.read = .error .digit := by
  obtain ⟨hl, i, hi, hin, hc⟩ := h
  have hlen : ¬ r.len.toNat > Config.dcap := by simp [Config.dcap]; omega
  have hany : (r.held.any (· > 9)) = true := by
    rw [List.any_eq_true]
    have hlt : i < r.held.length := by rw [DigitReg.length_held]; omega
    refine ⟨r.held.getD i 0, ?_, ?_⟩
    · rw [List.getD_eq_getElem _ _ hlt]; exact List.getElem_mem hlt
    · rw [DigitReg.held_getD r i hi hin]; simpa using hc
  simp [DigitReg.read, hlen, hany]

/-- A source read fails only for LEN or for a digit (R32). -/
theorem DigitReg.read_eq_error {r : DigitReg} {e : ErrCode} (h : r.read = .error e) : e = .len ∨ e = .digit := by
  unfold DigitReg.read at h
  split_ifs at h <;> cases h <;> simp

/-! ### The scale check of the composite commands (R131, R132) -/

theorem Operands.resultScale_eq_ok {o : Operands} {x : Option Nat} {rs : Nat} :
    o.resultScale x = .ok rs ↔ o.sA ≤ 76 ∧ o.sB ≤ 76 ∧ rs ≤ 76 ∧ rs = x.getD (max o.sA o.sB) := by
  unfold Operands.resultScale
  simp only [Config.smax]
  by_cases hA : o.sA ≤ 76 <;> by_cases hB : o.sB ≤ 76
  · cases x with
    | none => simp [show ¬ o.sA > 76 by omega, show ¬ o.sB > 76 by omega, hA, hB]; omega
    | some v =>
      by_cases hv : v ≤ 76
      · simp [show ¬ o.sA > 76 by omega, show ¬ o.sB > 76 by omega, hA, hB, show ¬ v > 76 by omega]; omega
      · simp [show ¬ o.sA > 76 by omega, show ¬ o.sB > 76 by omega, hA, hB, show v > 76 by omega]; omega
  · simp [show ¬ o.sA > 76 by omega, show o.sB > 76 by omega, hB]
  · simp [show o.sA > 76 by omega, hA]
  · simp [show o.sA > 76 by omega, hA]

/-- The only error of the scale check is E_SCALE. -/
theorem Operands.resultScale_eq_error {o : Operands} {x : Option Nat} {e : ErrCode} (h : o.resultScale x = .error e) :
    e = .scale := by
  unfold Operands.resultScale at h
  simp only [Config.smax] at h
  by_cases hA : o.sA > 76 <;> by_cases hB : o.sB > 76 <;> simp [hA, hB] at h <;> try exact h.symm
  cases x with
  | none => simp at h
  | some v => by_cases hv : v > 76 <;> simp [hv] at h; exact h.symm

/-! ### Writing a digit register (R31) -/

/-- The written register holds the sequence, whatever the free cells are. -/
theorem DigitReg.ofSeq_holds (q : DigitSeq) (draw : Nat) (hl : q.length ≤ 256) (hd : ∀ x ∈ q, x ≤ 15) :
    (DigitReg.ofSeq q draw).Holds q := by
  constructor
  · simp [DigitReg.ofSeq]; omega
  · intro i hi hq
    have hx := hd _ (List.getElem_mem hq)
    simp [DigitReg.ofSeq, hq]
    omega

/-! ### Completion (R35) -/

theorem finish_eq (s : State) (r : Except ErrCode Effect) : finish s r = .next (s.complete r) := rfl

theorem completedError_completeError (s : State) (e : ErrCode) : CompletedError s (s.completeError e) e := by
  refine ⟨rfl, by simp, by simp, by simp, by simp, ?_⟩
  intro j h3 h
  rw [State.completeError_status, getLsbD_statusError]
  split_ifs <;> first | rfl | omega

theorem completedOk_completeOk (s : State) (e : Effect) : CompletedOk s (s.completeOk e) := by
  refine ⟨rfl, by simp, by simp, ?_⟩
  intro j h2
  rw [State.completeOk_status, getLsbD_statusDone]
  split_ifs <;> first | rfl | omega

theorem keepsControl_complete (s : State) (r : Except ErrCode Effect) : KeepsControl s (s.complete r) := by
  cases r <;> simp [KeepsControl]

theorem wroteNothing_completeOk (s : State) : WroteNothing s (s.completeOk .none) :=
  ⟨completedOk_completeOk s _, keepsControl_complete s (.ok .none), by simp, by simp, by simp⟩

theorem wroteDigits_completeOk (s : State) (rd : DIdx) (q : DigitSeq) (hl : q.length ≤ 256) (hd : ∀ x ∈ q, x ≤ 15) :
    WroteDigits s (s.completeOk (.digits rd q)) rd q := by
  refine ⟨completedOk_completeOk s _, keepsControl_complete s (.ok (.digits rd q)), by simp, by simp, ?_, ?_⟩
  · intro k hk
    have : rd.val ≠ k.val := fun h => hk (Fin.ext h.symm)
    simp [Vector.getElem_set_ne, this]
  · simpa using DigitReg.ofSeq_holds q s.draws hl hd

theorem wroteMag_completeOk (s : State) (rd : MIdx) (v : Mag) : WroteMag s (s.completeOk (.mag rd v)) rd v := by
  refine ⟨completedOk_completeOk s _, keepsControl_complete s (.ok (.mag rd v)), by simp, by simp, ?_, ?_⟩
  · intro k hk
    have : rd.val ≠ k.val := fun h => hk (Fin.ext h.symm)
    simp [Vector.getElem_set_ne, this]
  · simp

/-! ### Every command is one completion (R61) -/

/-- What a command computes from its sources. -/
def commandResult : Instr → Sources → Except ErrCode Effect
  | .todig rd ra, src => todigResult src rd ra
  | .fromdig rd ra, src => fromdigResult src rd ra
  | .dmul rd ra rb, src => dmulResult src rd ra rb
  | .ddiv rd ra rb, src => ddivResult src rd ra rb
  | .dalign rd ra x y, src => dalignResult src rd ra x y
  | .ovchk ra, src => ovchkResult src ra
  | .muldec rd ra rb rs, src => muldecResult src rd ra rb (some rs)
  | .muldecDefault rd ra rb, src => muldecResult src rd ra rb none
  | .divdec rd ra rb rs, src => divdecResult src rd ra rb (some rs)
  | .divdecDefault rd ra rb, src => divdecResult src rd ra rb none

theorem exec_eq_complete (i : Instr) (s : State) : exec i s = .next (s.complete (commandResult i s.sources)) := by
  cases i <;> rfl

/-- The engine's completion event is a completion, of the command its word encodes or with E_ILLEGAL (R61, R67). -/
theorem engineComplete_eq (f : InFlight) (s : State) :
    engineComplete f s = .next (s.complete
      (match decode f.word with
        | .ok i => commandResult i s.sources
        | .error _ => .error .illegal)) := by
  unfold engineComplete
  split <;> simp [exec_eq_complete, *]

end Sys2Proof.Machine
end

