-- ==== Sys2Proof/Laws/Bus.lean ====
section
/-! SUPPORT. What one host access, one host operation and one step can do. -/

namespace Sys2Proof.Machine

/-- A host read changes nothing but the count of draws (R47). -/
theorem State.busRead_cases (s : State) (r : Reg) :
    (s.busRead r = (s.readReg r, s) ∧ (busyBit s.status = false ∨ r.isData = false)) ∨
    (s.busRead r = (Config.freeWord s.draws, { s with draws := s.draws + 1 }) ∧
      busyBit s.status = true ∧ r.isData = true) := by
  unfold State.busRead
  cases hb : busyBit s.status <;> cases hd : r.isData <;> simp

/-- A host write is either lost, with WBUSY <- 1 and nothing else, or a write of the register (R49). -/
theorem State.busWrite_cases (s : State) (r : Reg) (v : Word) :
    (s.busWrite r v = { s with status := statusLost s.status } ∧ busyBit s.status = true ∧ r.isGuarded = true) ∨
    (s.busWrite r v = s.writeReg r v ∧ (busyBit s.status = false ∨ r.isGuarded = false)) := by
  unfold State.busWrite
  cases hb : busyBit s.status <;> cases hd : r.isGuarded <;> simp

/-- An access the interface has reaches the register at its offset. -/
theorem accessReg_eq_next {width off : Nat} {k : Reg → Host.Outcome State Fault Refusal} {t : State}
    (h : accessReg width off k = .next t) : width = 32 ∧ off % 4 = 0 ∧ off < 4096 ∧ k (regAt off) = .next t := by
  unfold accessReg at h
  split at h
  · cases h
  · split at h
    · cases h
    · next h1 h2 =>
      simp only [Config.spaceSize] at h2
      exact ⟨by omega, by omega, by omega, h⟩

/-- What a host operation that answers a next state did. -/
theorem hostEvent_cases {op : HostOp} {s t : State} (h : hostEvent op s = .next t) :
    (∃ width off, op = .read width off ∧ t = s.hostRead (regAt off)) ∨
    (∃ width off v, op = .write width off v ∧ t = s.busWrite (regAt off) v) ∨
    (op = .wait ∧ busyBit s.status = true ∧ t = { s with host := .wait :: s.host }) ∨
    (op = .wait ∧ busyBit s.status = false ∧ t = s.hostRead .status) ∨
    (∃ k, op = .getd k ∧ t = { s.hostRead (.len k) with host := opsWindows k (s.busRead (.len k)).1 ++ s.host }) ∨
    (op = .rst ∧ t = s.assertRst) ∨ (op = .idle ∧ t = s) := by
  cases op with
  | read width off =>
    obtain ⟨-, -, -, hk⟩ := accessReg_eq_next (k := fun r => .next (s.hostRead r)) h
    cases hk
    exact .inl ⟨width, off, rfl, rfl⟩
  | write width off v =>
    obtain ⟨-, -, -, hk⟩ := accessReg_eq_next (k := fun r => .next (s.busWrite r v)) h
    cases hk
    exact .inr (.inl ⟨width, off, v, rfl, rfl⟩)
  | wait =>
    simp only [hostEvent] at h
    split at h
    · cases h; exact .inr (.inr (.inl ⟨rfl, ‹_›, rfl⟩))
    · next hb => cases h; exact .inr (.inr (.inr (.inl ⟨rfl, by simpa using hb, rfl⟩)))
  | getd k =>
    cases h
    exact .inr (.inr (.inr (.inr (.inl ⟨k, rfl, rfl⟩))))
  | rst =>
    cases h
    exact .inr (.inr (.inr (.inr (.inr (.inl ⟨rfl, rfl⟩)))))
  | idle =>
    cases h
    exact .inr (.inr (.inr (.inr (.inr (.inr ⟨rfl, rfl⟩)))))

/-- A bus cycle of the host: nothing pending, or the next operation. -/
theorem hostCycle_cases {s t : State} (h : hostCycle s = .next t) :
    (s.host = [] ∧ t = s) ∨ ∃ op rest, s.host = op :: rest ∧ hostEvent op { s with host := rest } = .next t := by
  unfold hostCycle at h
  split at h
  · cases h; exact .inl ⟨‹_›, rfl⟩
  · exact .inr ⟨_, _, ‹_›, h⟩

/-- A step is a completion, or a bus cycle of the host (R50, R190). -/
theorem step_cases {s t : State} (h : step s = .next t) :
    (s.inFlight = none ∧ hostCycle s = .next t) ∨
    (∃ f n, s.inFlight = some f ∧ f.wait = n + 1 ∧ hostCycle (s.tick f n) = .next t) ∨
    (∃ f, s.inFlight = some f ∧ f.wait = 0 ∧ engineComplete f s = .next t) := by
  unfold step at h
  split at h
  · exact .inl ⟨‹_›, h⟩
  · next f hf =>
    split at h
    · exact .inr (.inr ⟨f, hf, ‹_›, h⟩)
    · exact .inr (.inl ⟨f, _, hf, ‹_›, h⟩)

/-- The reads GETD queues are those of the window words its LEN field covers (R72). -/
theorem opsWindows_eq_windowReads (k : DIdx) (len : Word) : opsWindows k len = windowReads k (len.toNat % 512) := by
  simp only [opsWindows, windowReads, windowsCovering, opRd, Reg.offset]
  apply List.ext_getElem
  · simp [BitVec.toNat_setWidth]; omega
  · simp

end Sys2Proof.Machine
end

