-- ==== Sys2Proof/Laws/Decode.lean ====
section
/-! SUPPORT. The fields of the word an encoder builds (R62). -/

namespace Sys2Proof

/-- A field of a word written as what lies below it, the field, and what lies above it. -/
theorem field_ofNat_split (lo n a f h : Nat) (hln : lo + n ≤ 32) (ha : a < 2 ^ lo) (hf : f < 2 ^ n) :
    field (BitVec.ofNat 32 (a + 2 ^ lo * (f + 2 ^ n * h))) lo n = f := by
  have h32 : 2 ^ 32 = 2 ^ lo * (2 ^ n * 2 ^ (32 - lo - n)) := by
    rw [← pow_add, ← pow_add]; congr 1; omega
  rw [field, BitVec.extractLsb'_toNat, BitVec.toNat_ofNat, Nat.shiftRight_eq_div_pow, h32,
    Nat.mod_mul_right_div_self, Nat.mod_mul_right_mod, Nat.add_mul_div_left _ _ (Nat.two_pow_pos lo),
    Nat.div_eq_of_lt ha, Nat.zero_add, Nat.add_mul_mod_self_left, Nat.mod_eq_of_lt hf]

theorem fieldRd_val (w : Word) : (fieldRd w).val = field w 6 2 := rfl
theorem fieldRa_val (w : Word) : (fieldRa w).val = field w 8 2 := rfl
theorem fieldRb_val (w : Word) : (fieldRb w).val = field w 10 2 := rfl

/-- Every field of the word that `wordOf` builds from fields in range (R62). -/
theorem fields_wordOf {opc rd ra rb ds imm immb : Nat} (ho : opc < 64) (hd : rd < 4) (ha : ra < 4) (hb : rb < 4)
    (hs : ds < 2) (hi : imm < 256) (hj : immb < 256) :
    fieldOpc (wordOf opc rd ra rb ds imm immb) = opc ∧ (fieldRd (wordOf opc rd ra rb ds imm immb)).val = rd ∧
    (fieldRa (wordOf opc rd ra rb ds imm immb)).val = ra ∧ (fieldRb (wordOf opc rd ra rb ds imm immb)).val = rb ∧
    fieldDs (wordOf opc rd ra rb ds imm immb) = ds ∧ fieldRsv (wordOf opc rd ra rb ds imm immb) = 0 ∧
    fieldImm (wordOf opc rd ra rb ds imm immb) = imm ∧ fieldImmb (wordOf opc rd ra rb ds imm immb) = immb := by
  have key : ∀ lo n a f h, lo + n ≤ 32 → a < 2 ^ lo → f < 2 ^ n →
      opc + rd * 2 ^ 6 + ra * 2 ^ 8 + rb * 2 ^ 10 + ds * 2 ^ 12 + imm * 2 ^ 16 + immb * 2 ^ 24 =
        a + 2 ^ lo * (f + 2 ^ n * h) → field (wordOf opc rd ra rb ds imm immb) lo n = f := by
    intro lo n a f h h1 h2 h3 he
    rw [wordOf, he, field_ofNat_split lo n a f h h1 h2 h3]
  rw [fieldRd_val, fieldRa_val, fieldRb_val, fieldOpc, fieldDs, fieldRsv, fieldImm, fieldImmb]
  refine ⟨?_, ?_, ?_, ?_, ?_, ?_, ?_, ?_⟩
  · exact key 0 6 0 opc (rd + ra * 2 ^ 2 + rb * 2 ^ 4 + ds * 2 ^ 6 + imm * 2 ^ 10 + immb * 2 ^ 18)
      (by omega) (by omega) (by omega) (by ring)
  · exact key 6 2 opc rd (ra + rb * 2 ^ 2 + ds * 2 ^ 4 + imm * 2 ^ 8 + immb * 2 ^ 16)
      (by omega) (by omega) (by omega) (by ring)
  · exact key 8 2 (opc + rd * 2 ^ 6) ra (rb + ds * 2 ^ 2 + imm * 2 ^ 6 + immb * 2 ^ 14)
      (by omega) (by omega) (by omega) (by ring)
  · exact key 10 2 (opc + rd * 2 ^ 6 + ra * 2 ^ 8) rb (ds + imm * 2 ^ 4 + immb * 2 ^ 12)
      (by omega) (by omega) (by omega) (by ring)
  · exact key 12 1 (opc + rd * 2 ^ 6 + ra * 2 ^ 8 + rb * 2 ^ 10) ds (imm * 2 ^ 3 + immb * 2 ^ 11)
      (by omega) (by omega) (by omega) (by ring)
  · exact key 13 3 (opc + rd * 2 ^ 6 + ra * 2 ^ 8 + rb * 2 ^ 10 + ds * 2 ^ 12) 0 (imm + immb * 2 ^ 8)
      (by omega) (by omega) (by omega) (by ring)
  · exact key 16 8 (opc + rd * 2 ^ 6 + ra * 2 ^ 8 + rb * 2 ^ 10 + ds * 2 ^ 12) imm immb
      (by omega) (by omega) (by omega) (by ring)
  · exact key 24 8 (opc + rd * 2 ^ 6 + ra * 2 ^ 8 + rb * 2 ^ 10 + ds * 2 ^ 12 + imm * 2 ^ 16) immb 0
      (by omega) (by omega) (by omega) (by ring)

end Sys2Proof
end

