-- ==== Sys2Proof/Laws/Kernels.lean ====
section
/-! SUPPORT. What the two loops of the divide kernel keep (R110). -/

namespace Sys2Proof.Machine

theorem checkRange_eq_ok {r r' : Nat} : checkRange r = .ok r' ↔ r' = r ∧ r ≤ Config.magMax := by
  unfold checkRange
  split
  · simp; omega
  · simp [eq_comm]; omega

/-- The seed loop moves digits into the remainder and keeps the number that remainder and digits denote together; it
stops at the divisor or at the end of the digits. -/
theorem divSeed_spec {d : Nat} : ∀ {n : DigitSeq} {r r' : Nat} {rest : DigitSeq}, divSeed d n r = .ok (r', rest) →
    r' * 10 ^ rest.length + value rest = r * 10 ^ n.length + value n ∧ (rest = [] ∨ d ≤ r') ∧
      ∃ taken, n = taken ++ rest
  | [], r, r', rest, h => by
    simp only [divSeed, Except.ok.injEq, Prod.mk.injEq] at h
    obtain ⟨rfl, rfl⟩ := h
    simp
  | x :: xs, r, r', rest, h => by
    unfold divSeed at h
    split at h
    · cases hc : checkRange (r * 10 + x) with
      | error e => simp [hc, bind, Except.bind] at h
      | ok v =>
        simp only [hc, bind, Except.bind] at h
        obtain ⟨rfl, -⟩ := checkRange_eq_ok.mp hc
        obtain ⟨h1, h2, taken, rfl⟩ := divSeed_spec h
        refine ⟨?_, h2, x :: taken, rfl⟩
        rw [h1, value, List.length_cons, pow_succ]
        ring
    · simp only [Except.ok.injEq, Prod.mk.injEq] at h
      obtain ⟨rfl, rfl⟩ := h
      exact ⟨rfl, .inr (by omega), [], rfl⟩

/-- The emit loop with its final emission gives the digits of the exact quotient, one for each digit and one more. -/
theorem divEmit_spec {d : Nat} (hd : 1 ≤ d) : ∀ {n : DigitSeq} {r : Nat} {q : DigitSeq}, divEmit d n r = .ok q →
    value q = (r * 10 ^ n.length + value n) / d ∧ q.length = n.length + 1
  | [], r, q, h => by
    simp only [divEmit, Except.ok.injEq] at h
    subst h
    simp [value]
  | x :: xs, r, q, h => by
    unfold divEmit at h
    cases hc : checkRange (r % d * 10 + x) with
    | error e => simp [hc, bind, Except.bind] at h
    | ok v =>
      simp only [hc, bind, Except.bind] at h
      obtain ⟨rfl, -⟩ := checkRange_eq_ok.mp hc
      cases hq : divEmit d xs (r % d * 10 + x) with
      | error e => simp [hq] at h
      | ok q' =>
        simp only [hq, Except.ok.injEq] at h
        subst h
        obtain ⟨hv, hl⟩ := divEmit_spec hd hq
        refine ⟨?_, by simp [hl]⟩
        have hr : r = d * (r / d) + r % d := (Nat.div_add_mod r d).symm
        have : r * 10 ^ (x :: xs).length + value (x :: xs) =
            ((r % d * 10 + x) * 10 ^ xs.length + value xs) + d * (r / d * 10 ^ (xs.length + 1)) := by
          conv_lhs => rw [hr]
          simp only [List.length_cons, value, pow_succ]
          ring
        rw [this, Nat.add_mul_div_left _ _ (by omega), value, hv, hl]
        ring

/-- The seed loop's only error is E_RANGE. -/
theorem divSeed_eq_error {d : Nat} {n : DigitSeq} : ∀ {r : Nat} {e : ErrCode}, divSeed d n r = .error e → e = .range := by
  induction n with
  | nil => intro r e h; simp [divSeed] at h
  | cons x xs ih =>
    intro r e h
    unfold divSeed checkRange at h
    split at h
    · by_cases hc : r * 10 + x > Config.magMax
      · simp [hc, bind, Except.bind] at h; exact h.symm
      · simp [hc, bind, Except.bind] at h; exact ih h
    · cases h

/-- The emit loop's only error is E_RANGE. -/
theorem divEmit_eq_error {d : Nat} {n : DigitSeq} : ∀ {r : Nat} {e : ErrCode}, divEmit d n r = .error e → e = .range := by
  induction n with
  | nil => intro r e h; simp [divEmit] at h
  | cons x xs ih =>
    intro r e h
    unfold divEmit checkRange at h
    by_cases hc : r % d * 10 + x > Config.magMax
    · simp [hc, bind, Except.bind] at h; exact h.symm
    · simp [hc, bind, Except.bind] at h
      split at h
      · cases h; exact ih (by assumption)
      · cases h

/-- The divide kernel's only error is E_RANGE. -/
theorem divide_eq_error {d : Nat} {n : DigitSeq} {e : ErrCode} (h : divide n d = .error e) : e = .range := by
  unfold divide at h
  simp only [bind, Except.bind] at h
  split at h
  · cases h; exact divSeed_eq_error (by assumption)
  · split at h
    · cases h; exact divEmit_eq_error (by assumption)
    · cases h

end Sys2Proof.Machine
end

