-- ==== Sys2Proof/Laws/PerInstr.lean ====
section
/-! SUPPORT. Statements made for every command, one lemma per constructor. -/

/-- The opcode of a command (spec/30_encoding.md R60). -/
def Sys2Proof.Laws.opcodeOf : Sys2Proof.Instr → Nat
  | .todig _ _ => 1
  | .fromdig _ _ => 2
  | .dmul _ _ _ => 3
  | .ddiv _ _ _ => 4
  | .dalign _ _ _ _ => 5
  | .ovchk _ => 6
  | .muldec _ _ _ _ => 7
  | .muldecDefault _ _ _ => 7
  | .divdec _ _ _ _ => 8
  | .divdecDefault _ _ _ => 8

namespace Sys2Proof.Laws.EncodesOpcode

/-- The word of a well-formed command has the command's opcode in OPC, whatever the operands, and RSV is 0 (R60, R62). -/
def Statement (i : Instr) : Prop := i.wf = true → fieldOpc (encode i) = opcodeOf i ∧ fieldRsv (encode i) = 0

theorem opcode_wordOf {opc rd ra rb ds imm immb : Nat} (ho : opc < 64) (hd : rd < 4) (ha : ra < 4) (hb : rb < 4)
    (hs : ds < 2) (hi : imm < 256) (hj : immb < 256) :
    fieldOpc (wordOf opc rd ra rb ds imm immb) = opc ∧ fieldRsv (wordOf opc rd ra rb ds imm immb) = 0 := by
  obtain ⟨h, -, -, -, -, h', -, -⟩ := fields_wordOf ho hd ha hb hs hi hj
  exact ⟨h, h'⟩

theorem todig (rd : DIdx) (ra : MIdx) : Statement (.todig rd ra) := fun _ =>
  opcode_wordOf (by omega) rd.isLt ra.isLt (by omega) (by omega) (by omega) (by omega)
theorem fromdig (rd : MIdx) (ra : DIdx) : Statement (.fromdig rd ra) := fun _ =>
  opcode_wordOf (by omega) rd.isLt ra.isLt (by omega) (by omega) (by omega) (by omega)
theorem dmul (rd ra rb : DIdx) : Statement (.dmul rd ra rb) := fun _ =>
  opcode_wordOf (by omega) rd.isLt ra.isLt rb.isLt (by omega) (by omega) (by omega)
theorem ddiv (rd ra : DIdx) (rb : MIdx) : Statement (.ddiv rd ra rb) := fun _ =>
  opcode_wordOf (by omega) rd.isLt ra.isLt rb.isLt (by omega) (by omega) (by omega)
theorem dalign (rd ra : DIdx) (src tgt : Nat) : Statement (.dalign rd ra src tgt) := fun h =>
  opcode_wordOf (by omega) rd.isLt ra.isLt (by omega) (by omega) (by simp [Instr.wf] at h; omega) (by simp [Instr.wf] at h; omega)
theorem ovchk (ra : DIdx) : Statement (.ovchk ra) := fun _ =>
  opcode_wordOf (by omega) (by omega) ra.isLt (by omega) (by omega) (by omega) (by omega)
theorem muldec (rd ra rb : MIdx) (rs : Nat) : Statement (.muldec rd ra rb rs) := fun h =>
  opcode_wordOf (by omega) rd.isLt ra.isLt rb.isLt (by omega) (by simp [Instr.wf] at h; omega) (by omega)
theorem muldecDefault (rd ra rb : MIdx) : Statement (.muldecDefault rd ra rb) := fun _ =>
  opcode_wordOf (by omega) rd.isLt ra.isLt rb.isLt (by omega) (by omega) (by omega)
theorem divdec (rd ra rb : MIdx) (rs : Nat) : Statement (.divdec rd ra rb rs) := fun h =>
  opcode_wordOf (by omega) rd.isLt ra.isLt rb.isLt (by omega) (by simp [Instr.wf] at h; omega) (by omega)
theorem divdecDefault (rd ra rb : MIdx) : Statement (.divdecDefault rd ra rb) := fun _ =>
  opcode_wordOf (by omega) rd.isLt ra.isLt rb.isLt (by omega) (by omega) (by omega)

end Sys2Proof.Laws.EncodesOpcode
end

