-- ==== Sys2Proof/Laws/Registers.lean ====
section
/-! SUPPORT. The bits of the words in which the host moves a magnitude register and a digit window (R42, R45), and the
address map. -/

namespace Sys2Proof.Machine

theorem getLsbD_magWord (v : Mag) (w : Fin 8) (b : Nat) (hb : b < 32) :
    (magWord v w).getLsbD b = v.getLsbD (32 * w.val + b) := by
  simp [magWord, hb]

theorem getLsbD_wordMask (j : Nat) : (0xFFFFFFFF#256).getLsbD j = decide (j < 32) := by
  rw [BitVec.getLsbD, show (0xFFFFFFFF#256).toNat = 2 ^ 32 - 1 from rfl, Nat.testBit_two_pow_sub_one]

/-- Writing word w replaces its 32 bits and keeps the others (R42). -/
theorem getLsbD_setMagWord (v : Mag) (w : Fin 8) (x : Word) (i : Nat) (hi : i < 256) :
    (setMagWord v w x).getLsbD i = if i / 32 = w.val then x.getLsbD (i % 32) else v.getLsbD i := by
  simp only [setMagWord, BitVec.getLsbD_or, BitVec.getLsbD_and, BitVec.getLsbD_not, BitVec.getLsbD_shiftLeft,
    BitVec.getLsbD_setWidth, getLsbD_wordMask, hi, decide_true, Bool.true_and]
  by_cases h : i / 32 = w.val
  · have h1 : ¬ i < 32 * w.val := by omega
    have h2 : i - 32 * w.val < 32 := by omega
    have h3 : i - 32 * w.val = i % 32 := by omega
    have h4 : i % 32 < 256 := by omega
    rw [h3] at h2 ⊢
    simp [h, h1, h2, h4]
  · by_cases h1 : i < 32 * w.val
    · simp [h, h1]
    · have h2 : ¬ i - 32 * w.val < 32 := by omega
      have h3 : x.getLsbD (i - 32 * w.val) = false := BitVec.getLsbD_of_ge _ _ (by omega)
      simp [h, h1, h2, h3]

/-- Bit 4j + b of window word w is bit b of cell 8w + j (R45). -/
theorem getLsbD_windowWord (cells : Vector Cell 256) (w : Fin 32) (j b : Nat) (hj : j < 8) (hb : b < 4) :
    (windowWord cells w).getLsbD (4 * j + b) = (cells[8 * w.val + j]'(by omega)).getLsbD b := by
  unfold windowWord
  interval_cases j <;> interval_cases b <;> simp only [BitVec.getLsbD_append] <;> rfl

/-- Writing window word w sets its eight cells and keeps the others (R45). -/
theorem getElem_setWindowWord (cells : Vector Cell 256) (w : Fin 32) (x : Word) (i : Nat) (hi : i < 256) :
    (setWindowWord cells w x)[i] = if i / 8 = w.val then x.extractLsb' (4 * (i % 8)) 4 else cells[i] := by
  simp [setWindowWord]

/-- Writing one word of a magnitude register leaves its other words (R42). -/
theorem magWord_setMagWord_of_ne (v : Mag) {w w' : Fin 8} (x : Word) (h : w' ≠ w) :
    magWord (setMagWord v w x) w' = magWord v w' := by
  apply BitVec.eq_of_getLsbD_eq
  intro b hb
  have : (32 * w'.val + b) / 32 ≠ w.val := fun hw => h (Fin.ext (by omega))
  rw [getLsbD_magWord _ _ _ hb, getLsbD_magWord _ _ _ hb, getLsbD_setMagWord _ _ _ _ (by omega), if_neg this]

/-- Writing one window word leaves the others (R45). -/
theorem windowWord_setWindowWord_of_ne (cells : Vector Cell 256) {w w' : Fin 32} (x : Word) (h : w' ≠ w) :
    windowWord (setWindowWord cells w x) w' = windowWord cells w' := by
  have hc : ∀ (j : Nat) (hj : j < 8),
      (setWindowWord cells w x)[8 * w'.val + j]'(by omega) = cells[8 * w'.val + j]'(by omega) := by
    intro j hj
    have : (8 * w'.val + j) / 8 ≠ w.val := fun hw => h (Fin.ext (by omega))
    rw [getElem_setWindowWord, if_neg this]
  have h0 := hc 0 (by omega)
  simp only [Nat.add_zero] at h0
  simp only [windowWord, h0, hc 1 (by omega), hc 2 (by omega), hc 3 (by omega), hc 4 (by omega), hc 5 (by omega),
    hc 6 (by omega), hc 7 (by omega)]

end Sys2Proof.Machine
end

