-- ==== Sys2Proof/Tests/Slice0.lean ====
section
/-! SUPPORT. Tests with results taken from spec/ (the vector's id stands in the comment), and for every statement with
hypotheses a witness: concrete states and operands that meet them, at the boundary of each clause. -/

namespace Sys2Proof.Tests

open Sys2Proof Sys2Proof.Machine

-- One kernel check at a time: many at once, each on a thread of its own, would fill the memory.
set_option Elab.async false

/-! ### WellFormed: each check refuses an ill-formed term -/

theorem test_wf_refuses_dalign_from : (Instr.dalign 0 0 256 0).wf = false := by decide
theorem test_wf_refuses_dalign_to : (Instr.dalign 0 0 0 256).wf = false := by decide
theorem test_wf_refuses_muldec_scale : (Instr.muldec 0 0 0 256).wf = false := by decide
theorem test_wf_refuses_divdec_scale : (Instr.divdec 0 0 0 256).wf = false := by decide
theorem test_wf_accepts_scale_above_76 : (Instr.muldec 0 0 0 255).wf = true := by decide

/-! ### Decode: words of spec/30_encoding.md R75 and spec/95_test_vectors.md L2.1 -/

theorem test_decode_todig : decode 0x00000141#32 = .ok (.todig 1 1) := by decide
theorem test_decode_fromdig : decode 0x00000382#32 = .ok (.fromdig 2 3) := by decide
theorem test_decode_dmul : decode 0x00000483#32 = .ok (.dmul 2 0 1) := by decide
theorem test_decode_ddiv : decode 0x00000584#32 = .ok (.ddiv 2 1 1) := by decide
theorem test_decode_dalign : decode 0x040202C5#32 = .ok (.dalign 3 2 4 2) := by decide
theorem test_decode_dalign_limits : decode 0xFFFF03C5#32 = .ok (.dalign 3 3 255 255) := by decide
theorem test_decode_dtrunc : decode 0xFF000045#32 = .ok (.dtrunc 1 0 255) := by decide
theorem test_decode_ovchk : decode 0x00000306#32 = .ok (.ovchk 3) := by decide
theorem test_decode_muldec : decode 0x00FF0487#32 = .ok (.muldec 2 0 1 255) := by decide
theorem test_decode_muldec_default : decode 0x000014C7#32 = .ok (.muldecDefault 3 0 1) := by decide
theorem test_decode_divdec : decode 0x000204C8#32 = .ok (.divdec 3 0 1 2) := by decide
theorem test_decode_divdec_default : decode 0x000014C8#32 = .ok (.divdecDefault 3 0 1) := by decide
theorem test_decode_illegal_opcode : decode 0x0000003F#32 = .error .reservedOpcode := by decide
theorem test_decode_illegal_rsv : decode 0xFFFF3FC5#32 = .error .reservedBits := by decide
theorem test_decode_illegal_unused : decode 0x00000046#32 = .error .unusedField := by decide
theorem test_decode_illegal_ds : decode 0x00011007#32 = .error .defaultSelect := by decide
theorem test_encode_dalign : encode (.dalign 1 0 10 3) = 0x0A030045#32 := by decide
theorem test_decodeTableWord : decodeTableWord 32 0x00001008 = some (.divdecDefault 0 0 0) := by decide

/-! ### Small states -/

/-- A digit register that holds `q`, its other cells 0. -/
def regOf (q : DigitSeq) : DigitReg :=
  ⟨Vector.ofFn fun i => BitVec.ofNat 4 (q.getD i.val 0), BitVec.ofNat 9 q.length⟩

theorem regOf_holds (q : DigitSeq) (hl : q.length ≤ 256) (hd : ∀ x ∈ q, x ≤ 15) : (regOf q).Holds q := by
  constructor
  · simp [regOf]; omega
  · intro i hi hq
    have hx := hd _ (List.getElem_mem hq)
    simp [regOf, hq]
    omega

theorem regOf_source (q : DigitSeq) (h : (q.length ≤ 256 && allDigits q) = true) : (regOf q).Source q := by
  simp only [Bool.and_eq_true, decide_eq_true_eq, allDigits, List.all_eq_true] at h
  exact ⟨regOf_holds q h.1 fun x hx => by have := h.2 x hx; omega, h.1, h.2⟩

/-- The reset state with D[k] holding a sequence. -/
def withD (s : State) (k : DIdx) (q : DigitSeq) : State := { s with d := s.d.set k (regOf q) }

/-- The reset state with M0 = a, M1 = b, SA, SB. -/
def withOperands (a b : Int) (sA sB : Nat) : State :=
  { State.reset with
    m := (State.reset.m.set 0 (BitVec.ofInt 256 a)).set 1 (BitVec.ofInt 256 b)
    scale := BitVec.ofNat 32 (sA + 256 * sB) }

/-- The reset state with D[k] holding `len` digits 0. -/
def withZeros (k : DIdx) (len : Nat) : State :=
  { State.reset with d := State.reset.d.set k ⟨Vector.replicate 256 0#4, BitVec.ofNat 9 len⟩ }

/-- The state after the step that runs the command word `w`, if it is a next state. -/
def after (s : State) (w : Nat) : Option State :=
  match step (s.withFetchWord 32 w) with
  | .next t => some t
  | _ => none

/-- The number in M2, RSCALE and STATUS after a command. -/
def mResult (s : State) (w : Nat) : Option (Int × Nat × Word) :=
  (after s w).map fun t => (t.m[2].toInt, t.rscale.toNat, t.status)

/-- The sequence in D[k] and STATUS after a command. -/
def dResult (s : State) (k : DIdx) (w : Nat) : Option (DigitSeq × Word) :=
  (after s w).map fun t => (t.d[k].held, t.status)

def nines (k : Nat) : DigitSeq := List.replicate k 9

/-! ### The commands: vectors of spec/95_test_vectors.md L2.2 to L2.9 -/

/-- TD2. -/
theorem test_todig : dResult (withOperands 56088 0 0 0) 0 0x00000001 = some ([5, 6, 0, 8, 8], 0x2#32) := by
  decide +kernel
/-- TD3: the unsigned reading of −1 has 78 digits. -/
theorem test_todig_unsigned : (after (withOperands (-1) 0 0 0) 0x00000001).map (·.d[0].len) = some 78#9 := by
  decide +kernel
/-- FD3. -/
theorem test_fromdig : mResult (withD State.reset 3 [0, 0, 4, 2]) 0x00000382 = some (42, 0, 0x2#32) := by
  decide +kernel
/-- FD10. -/
theorem test_fromdig_bad_digit : mResult (withD State.reset 3 [1, 10]) 0x00000382 = some (0, 0, 0x406#32) := by
  decide +kernel
/-- DM8: DMUL D0, D0, D0. -/
theorem test_dmul_square : dResult (withD State.reset 0 [1, 2]) 0 0x00000003 = some ([1, 4, 4], 0x2#32) := by
  decide +kernel
/-- DM10: B is read although A is empty. -/
theorem test_dmul_len_of_b :
    dResult (withZeros 1 257) 2 0x00000483 = some ([], 0x306#32) := by decide +kernel
/-- DV15. -/
theorem test_ddiv :
    dResult (withD (withOperands 0 7 0 0) 0 [1, 0, 0, 0, 0, 0, 0]) 1 0x00000444 = some ([1, 4, 2, 8, 5, 7], 0x2#32) := by
  decide +kernel
/-- DV9: 78 nines by 2^256 − 1. -/
theorem test_ddiv_range : dResult (withD (withOperands 0 (-1) 0 0) 0 (nines 78)) 1 0x00000444 = some ([], 0x606#32) := by
  decide +kernel
/-- DA1. -/
theorem test_dalign : dResult (withD State.reset 2 [5, 6, 0, 8, 8]) 3 0x040202C5 = some ([5, 6, 0], 0x2#32) := by
  decide +kernel
/-- DA12: 250 digits padded by 7. -/
theorem test_dalign_cap : dResult (withZeros 0 250) 1 0x00070045 = some ([], 0x706#32) := by
  decide +kernel
/-- OV1, OV2. -/
theorem test_ovchk : (after (withZeros 3 76) 0x00000306).map (·.status) = some 0x2#32 ∧
    (after (withZeros 3 77) 0x00000306).map (·.status) = some 0x806#32 := by decide +kernel
/-- MD4. -/
theorem test_muldec : mResult (withOperands (-123) 456 2 2) 0x00020487 = some (-560, 2, 0x2#32) := by decide +kernel
/-- MD14: the zero product at scale 76. -/
theorem test_muldec_zero_overflow : mResult (withOperands 0 0 0 0) 0x004C0487 = some (0, 0, 0x806#32) := by
  decide +kernel
/-- MD2. -/
theorem test_muldec_default : mResult (withOperands 123 456 2 2) 0x00001487 = some (560, 2, 0x2#32) := by decide +kernel
/-- DD2. -/
theorem test_divdec : mResult (withOperands (-7) 2 0 0) 0x00000488 = some (-3, 0, 0x2#32) := by decide +kernel
/-- DD25: E_SCALE before E_DIVZERO. -/
theorem test_divdec_scale_first : mResult (withOperands 1 0 80 0) 0x00000488 = some (0, 0, 0x206#32) := by
  decide +kernel
/-- DD22. -/
theorem test_divdec_default : mResult (withOperands 1 3 0 2) 0x00001488 = some (3333, 2, 0x2#32) := by decide +kernel
/-- E15: an illegal word. -/
theorem test_illegal : (after State.reset 0).map (·.status) = some 0x106#32 := by decide +kernel

/-! ### The register space: vectors of L2.10 -/

/-- IF5. -/
theorem test_ctrl_write : (State.reset.busWrite .ctrl 0xFFFFFFFF#32).readReg .ctrl = 0x1#32 := by decide +kernel
/-- IF6. -/
theorem test_len_write : (State.reset.busWrite (.len 0) 0xFFFFFFFF#32).readReg (.len 0) = 0x1FF#32 := by decide +kernel
/-- IF10. -/
theorem test_status_write : statusWrite 0xFFFFFFFF#32 0x0000080E#32 = 0x00000800#32 := by decide
/-- IF11: STATUS while the next command is in flight, WBUSY kept. -/
theorem test_status_accept : statusAccept 0x0000080E#32 = 0x00000009#32 := by decide
/-- IF17. -/
theorem test_window_read :
    windowWord (regOf [5, 6, 0, 8, 8, 1, 2, 3, 4]).cells 0 = 0x32188065#32 ∧
      windowWord (regOf [5, 6, 0, 8, 8, 1, 2, 3, 4]).cells 1 = 0x4#32 := by decide +kernel
/-- IF18. -/
theorem test_mag_word : magWord (2 ^ 255) 7 = 0x80000000#32 ∧ setMagWord 0 7 0x80000000#32 = 2 ^ 255 := by
  decide +kernel
/-- The start of P1 through the bus: LDM M0, 123 leaves M0 = 123 after eight steps. -/
theorem test_ldm : ((List.finRange 8).foldl (fun s w => s.busWrite (.mag 0 w) (magWord 123 w)) State.reset).m[0] = 123 := by
  decide +kernel

/-! ### Witnesses -/

/-- A state with a command in flight that has `n` further cycles to wait, and host operations pending. -/
def inFlightState (w : Word) (n : Nat) (ops : List HostOp) : State :=
  { State.reset.accept w n with host := ops }

/-- An idle state after a command that ended in E_OVERFLOW, with every control register used. -/
def usedState : State :=
  { State.reset with status := 0x0000080E#32, ctrl := 1#32, scale := 0x00004C4C#32, rscale := 76#32, cmd := 0x487#32 }

theorem inFlightState_inv (w : Word) (n : Nat) (ops : List HostOp) : StateInv (inFlightState w n ops) where
  busy_eq := show busyBit (statusAccept 0#32) = true by decide
  flight_word := by rintro f ⟨⟩; rfl
  flight_src := by rintro f ⟨⟩; rfl
  flight_scratch := by rintro f ⟨⟩; rfl
  flight_status := fun _ => show doneBit (statusAccept 0#32) = false ∧ errBit (statusAccept 0#32) = false ∧
    ecodeField (statusAccept 0#32) = 0#4 by decide
  err_code := fun h => absurd h (show ¬errBit (statusAccept 0#32) = true by decide)
  ecode_le := show (ecodeField (statusAccept 0#32)).toNat ≤ 8 by decide
  status_reserved := show statusAccept 0#32 &&& 0xFFFFF0F0#32 = 0#32 by decide
  ctrl_reserved := show 0#32 &&& 0xFFFFFFFE#32 = 0#32 by decide
  scale_reserved := show 0#32 &&& 0xFFFF0000#32 = 0#32 by decide
  rscale_le := show (0#32).toNat ≤ 76 by decide

theorem usedState_inv : StateInv usedState where
  busy_eq := by decide
  flight_word := by rintro f ⟨⟩
  flight_src := by rintro f ⟨⟩
  flight_scratch := by rintro f ⟨⟩
  flight_status := by intro h; exact absurd h (by decide)
  err_code := fun _ => by decide
  ecode_le := by decide
  status_reserved := by decide
  ctrl_reserved := by decide
  scale_reserved := by decide
  rscale_le := by decide

theorem witness_StepKeepsInvariant :
    (StateInv usedState ∧ step usedState = .next usedState) ∧
    (StateInv (inFlightState 1#32 0 []) ∧ ∃ t, step (inFlightState 1#32 0 []) = .next t) ∧
    (StateInv (inFlightState 1#32 1 [.write 32 0x010 5#32]) ∧
      ∃ t, step (inFlightState 1#32 1 [.write 32 0x010 5#32]) = .next t) :=
  ⟨⟨usedState_inv, rfl⟩, ⟨inFlightState_inv _ _ _, _, rfl⟩, inFlightState_inv _ _ _, _, rfl⟩

theorem witness_DecodeOfEncode : (Instr.dalign 3 3 255 255).wf = true ∧ (Instr.muldec 3 3 3 255).wf = true ∧
    (Instr.divdec 0 0 0 0).wf = true := by decide

theorem witness_EncodeOfDecode : decode 0xFFFF03C5#32 = .ok (.dalign 3 3 255 255) := by decide

theorem witness_IllegalWordConditions :
    (decode 0x00000000#32).toOption = none ∧ (decode 0x00000009#32).toOption = none ∧
    (decode 0x00000008#32).toOption ≠ none := by decide

theorem witness_StepRunsDecodedCommand : ∃ f, (inFlightState 0x00000141#32 0 []).inFlight = some f ∧ f.wait = 0 ∧
    decode f.word = .ok (.todig 1 1) := ⟨_, rfl, rfl, by decide⟩

theorem witness_IllegalWordCompletes : ∃ f, (inFlightState 0x00000000#32 0 []).inFlight = some f ∧ f.wait = 0 ∧
    decode f.word = .error .reservedOpcode := ⟨_, rfl, rfl, by decide⟩

theorem witness_StepPerformsHostOperation :
    ({ State.reset with host := [.idle] }.host = .idle :: [] ∧ { State.reset with host := [.idle] }.inFlight = none) ∧
    ∃ f, (inFlightState 1#32 1 [.rst]).host = .rst :: [] ∧ (inFlightState 1#32 1 [.rst]).inFlight = some f ∧
      f.wait = 0 + 1 := ⟨⟨rfl, rfl⟩, _, rfl, rfl, rfl⟩

theorem witness_CommandInFlightCompletes :
    (∃ f, StateInv (inFlightState 1#32 0 []) ∧ (inFlightState 1#32 0 []).inFlight = some f) ∧
    ∃ f, StateInv (inFlightState 1#32 2 [.getd 0, .write 32 0x00C 1#32, .wait]) ∧
      (inFlightState 1#32 2 [.getd 0, .write 32 0x00C 1#32, .wait]).inFlight = some f ∧
      ∀ op ∈ (inFlightState 1#32 2 [.getd 0, .write 32 0x00C 1#32, .wait]).host, op.supported = true :=
  ⟨⟨_, inFlightState_inv _ _ _, rfl⟩, _, inFlightState_inv _ _ _, rfl, by decide⟩

theorem witness_OnlyRstAbandonsCommand :
    ∃ f t, StateInv (inFlightState 1#32 1 [.write 32 0x00C 2#32]) ∧
      (inFlightState 1#32 1 [.write 32 0x00C 2#32]).inFlight = some f ∧ f.wait = 0 + 1 ∧
      (inFlightState 1#32 1 [.write 32 0x00C 2#32]).host.head? ≠ some .rst ∧
      step (inFlightState 1#32 1 [.write 32 0x00C 2#32]) = .next t :=
  ⟨_, _, inFlightState_inv _ _ _, rfl, rfl, by decide, rfl⟩

theorem witness_CmdWriteAcceptsCommand : busyBit usedState.status = false ∧
    busyBit (inFlightState 1#32 1 []).status = true ∧ decode 0#32 = .error .reservedOpcode := by decide +kernel

theorem witness_StatusWordAfterCompletion :
    (StateInv usedState ∧ ∃ t, exec (.todig 0 0) (usedState.accept (encode (.todig 0 0)) 0) = .next t) ∧
    ∃ t, exec (.ddiv 0 0 0) (usedState.accept (encode (.ddiv 0 0 0)) 0) = .next t :=
  ⟨⟨usedState_inv, _, rfl⟩, _, rfl⟩

/-- The digits of 2^256 − 1 and of 2^256, the two sides of the range. -/
theorem witness_FromdigWritesValue :
    ((withD State.reset 3 (digitsOf (2 ^ 256 - 1))).sources.d[(3 : DIdx)].Source (digitsOf (2 ^ 256 - 1)) ∧
      decimalValue (digitsOf (2 ^ 256 - 1)) = 2 ^ 256 - 1) ∧
    (withD State.reset 3 (digitsOf (2 ^ 256))).sources.d[(3 : DIdx)].Source (digitsOf (2 ^ 256)) ∧
      decimalValue (digitsOf (2 ^ 256)) = 2 ^ 256 :=
  ⟨⟨regOf_source _ (by decide +kernel), by decide +kernel⟩, regOf_source _ (by decide +kernel), by decide +kernel⟩

/-- 10^127 times 10^128 has 256 digits, 10^127 times 10^129 has 257 (DM6, DM7). -/
theorem witness_DmulWritesProduct :
    let s := withD (withD (withD State.reset 0 (1 :: zeros 127)) 1 (1 :: zeros 128)) 2 (1 :: zeros 129)
    s.sources.d[(0 : DIdx)].Source (1 :: zeros 127) ∧ s.sources.d[(1 : DIdx)].Source (1 :: zeros 128) ∧
    s.sources.d[(2 : DIdx)].Source (1 :: zeros 129) ∧
    decimalValue (1 :: zeros 127) * decimalValue (1 :: zeros 128) < 10 ^ 256 ∧
    10 ^ 256 ≤ decimalValue (1 :: zeros 127) * decimalValue (1 :: zeros 129) :=
  ⟨regOf_source _ (by decide +kernel), regOf_source _ (by decide +kernel), regOf_source _ (by decide +kernel),
    by decide +kernel, by decide +kernel⟩

/-- DV10 and DV9: 77 and 78 nines by 2^256 − 1. -/
theorem witness_DdivWritesQuotient :
    let s := withD (withD (withOperands 0 (-1) 0 0) 0 (nines 77)) 1 (nines 78)
    s.sources.d[(0 : DIdx)].Source (nines 77) ∧ s.sources.d[(1 : DIdx)].Source (nines 78) ∧
    s.sources.m[(1 : MIdx)] ≠ 0#256 ∧ ¬RemainderExceeds (nines 77) s.sources.m[(1 : MIdx)].toNat ∧
    RemainderExceeds (nines 78) s.sources.m[(1 : MIdx)].toNat :=
  ⟨regOf_source _ (by decide +kernel), regOf_source _ (by decide +kernel), by decide +kernel,
    by unfold RemainderExceeds; decide +kernel, 77, by decide +kernel, by decide +kernel⟩

/-- DA11, DA12, DA14 and DA4, each at its boundary. -/
theorem witness_DalignWritesAlignment :
    (withD State.reset 0 (nines 250)).sources.d[(0 : DIdx)].Source (nines 250) ∧
    (0 ≤ 6 ∧ (nines 250).length + (6 - 0) = 256) ∧ (0 ≤ 7 ∧ (nines 250).length + (7 - 0) = 257) ∧
    (0 < 249 ∧ 249 - 0 < (nines 250).length) ∧ (0 < 250 ∧ (nines 250).length ≤ 250 - 0) :=
  ⟨regOf_source _ (by decide +kernel), by decide +kernel, by decide +kernel, by decide +kernel, by decide +kernel⟩

theorem witness_OvchkGuardsLength :
    (withD State.reset 3 (nines 76)).sources.d[(3 : DIdx)].Source (nines 76) ∧ (nines 76).length = 76 ∧
    (withD State.reset 3 (nines 77)).sources.d[(3 : DIdx)].Source (nines 77) ∧ (nines 77).length = 77 :=
  ⟨regOf_source _ (by decide +kernel), by decide +kernel, regOf_source _ (by decide +kernel), by decide +kernel⟩

/-- LEN1 = 257, with D0 readable. -/
theorem witness_LenAboveCapacityRaises :
    let s := { withD State.reset 0 [7] with d := (withD State.reset 0 [7]).d.set 1 ⟨Vector.replicate 256 0#4, 257#9⟩ }
    256 < s.sources.d[(1 : DIdx)].len.toNat ∧ s.sources.d[(0 : DIdx)].Source [7] :=
  ⟨by decide +kernel, regOf_source _ (by decide +kernel)⟩

/-- The last cell within LEN holds 10; LEN is 2, and 256. -/
theorem witness_BadDigitRaises :
    let s := { withD (withD State.reset 0 [7]) 1 [1, 10] with
      d := (withD (withD State.reset 0 [7]) 1 [1, 10]).d.set 2 ⟨(Vector.replicate 256 0#4).set 255 10#4, 256#9⟩ }
    s.sources.d[(1 : DIdx)].BadDigit ∧ s.sources.d[(2 : DIdx)].BadDigit ∧ s.sources.d[(0 : DIdx)].Source [7] :=
  ⟨⟨by decide +kernel, 1, by decide, by decide +kernel, by decide +kernel⟩,
    ⟨by decide +kernel, 255, by decide, by decide +kernel, by decide +kernel⟩, regOf_source _ (by decide +kernel)⟩

theorem witness_SourceReadCases : (regOf []).Source [] ∧ (regOf (nines 256)).Source (nines 256) :=
  ⟨regOf_source _ (by decide), regOf_source _ (by decide +kernel)⟩

/-- DV7 and DD8, at the greatest legal scales. -/
theorem witness_ZeroDivisorRaises :
    ((withD State.reset 0 [1, 2]).sources.d[(0 : DIdx)].Source [1, 2] ∧
      (withD State.reset 0 [1, 2]).sources.m[(1 : MIdx)] = 0#256) ∧
    (withOperands 0 0 76 76).sources.m[(1 : MIdx)] = 0#256 ∧
    (withOperands 0 0 76 76).sources.scale.toNat % 256 ≤ 76 ∧
    (withOperands 0 0 76 76).sources.scale.toNat / 256 % 256 ≤ 76 :=
  ⟨⟨regOf_source _ (by decide), by decide +kernel⟩, by decide +kernel⟩

/-- MD17, MD18 and MD19. -/
theorem witness_IllegalScaleRaises :
    76 < (withOperands 1 1 77 0).sources.scale.toNat % 256 ∧
    76 < (withOperands 1 1 0 77).sources.scale.toNat / 256 % 256 ∧
    ((withOperands 1 1 0 0).sources.scale.toNat % 256 ≤ 76 ∧ 76 < 77) := by decide +kernel

/-- The scales at 76; a result of 76 digits (MD10), one of 77 (MD11), the zero product (MD14). -/
theorem witness_MuldecWritesProduct :
    ((withOperands 1 1 76 76).sources.scale.toNat % 256 = 76 ∧
      (withOperands 1 1 76 76).sources.scale.toNat / 256 % 256 = 76) ∧
    (mulMagnitude (10 ^ 38) (10 ^ 37) 0 0 0 < 10 ^ 76 ∧ ¬((10 : Int) ^ 38 * 10 ^ 37 = 0 ∧ (0 = 0) ∧ 0 = 0 ∧ 0 = 76)) ∧
    ¬mulMagnitude (10 ^ 38) (10 ^ 38) 0 0 0 < 10 ^ 76 ∧
    (mulMagnitude 0 5 0 0 76 < 10 ^ 76 ∧ ((0 : Int) * 5 = 0 ∧ 0 = 0 ∧ 0 = 0 ∧ 76 = 76)) := by
  decide +kernel

/-- DD12, DD11 and DD15: a quotient of 76 digits, one of 77, a remainder out of range. -/
theorem witness_DivdecWritesQuotient :
    ((withOperands 1 1 76 76).sources.scale.toNat % 256 = 76 ∧
      (withOperands 1 1 76 76).sources.scale.toNat / 256 % 256 = 76 ∧
      (withOperands 1 1 76 76).sources.m[(1 : MIdx)] ≠ 0#256) ∧
    (¬RemainderExceeds (digitsOf (5 * 10 ^ 75)) 1 ∧ 5 * 10 ^ 75 / 1 < 10 ^ 76) ∧
    (¬RemainderExceeds (digitsOf (5 * 10 ^ 76)) 1 ∧ 10 ^ 76 ≤ 5 * 10 ^ 76 / 1) ∧
    RemainderExceeds (digitsOf (10 ^ 76) ++ List.replicate (divPadding 0 0 2) 0) (2 ^ 255 - 1) :=
  ⟨by decide +kernel, ⟨by unfold RemainderExceeds; decide +kernel, by decide +kernel⟩,
    ⟨by unfold RemainderExceeds; decide +kernel, by decide +kernel⟩, 78, by decide +kernel, by decide +kernel⟩

theorem witness_CompositeCapacity :
    let o := (withOperands (-2 ^ 255) 1 0 76).snapshot.operands 0 1
    o.sA = 0 ∧ o.sB = 76 ∧ (divide (divNumerator o 76) o.b.natAbs).toOption.isSome = true := by decide +kernel

theorem witness_MuldecEqualsUnitCommands :
    (withOperands 123 456 76 76).scale.toNat % 256 = 76 ∧ (withOperands 123 456 76 76).scale.toNat / 256 % 256 = 76 ∧
    76 = max 76 76 ∧ (0 : DIdx) ≠ 1 ∧ 0 ≤ (withOperands 123 456 76 76).m[(0 : MIdx)].toInt ∧
    0 ≤ (withOperands 123 456 76 76).m[(1 : MIdx)].toInt := by decide +kernel

theorem witness_DivdecEqualsUnitCommands :
    (withOperands 0 (2 ^ 255 - 1) 0 76).scale.toNat % 256 = 0 ∧
    (withOperands 0 (2 ^ 255 - 1) 0 76).scale.toNat / 256 % 256 = 76 ∧ 76 = max 0 76 ∧
    0 ≤ (withOperands 0 (2 ^ 255 - 1) 0 76).m[(0 : MIdx)].toInt ∧
    0 ≤ (withOperands 0 (2 ^ 255 - 1) 0 76).m[(1 : MIdx)].toInt := by decide +kernel

theorem witness_ConversionRoundTrips :
    (withD State.reset 0 (zeros 178 ++ digitsOf (2 ^ 256 - 1))).d[(0 : DIdx)].Source
      (zeros 178 ++ digitsOf (2 ^ 256 - 1)) ∧
    decimalValue (zeros 178 ++ digitsOf (2 ^ 256 - 1)) = 2 ^ 256 - 1 ∧ (regOf []).Source [] ∧ decimalValue [] = 0 :=
  ⟨regOf_source _ (by decide +kernel), by decide +kernel, regOf_source _ (by decide), by decide⟩

theorem witness_DigitsOfIsCanonical : allDigits [0, 0, 4, 2] = true ∧ allDigits [] = true ∧ allDigits [10] = false := by
  decide

theorem witness_AlignmentValueLaw : allDigits [5, 6] = true ∧ 4 ≤ 4 ∧ (4 < 5 ∧ 5 - 4 < [5, 6].length) ∧
    (4 < 6 ∧ 6 - 4 = [5, 6].length) := by decide

theorem witness_SchoolbookEqualsMultiply : [0, 9] ≠ ([] : DigitSeq) ∧ [9, 9, 9] ≠ ([] : DigitSeq) ∧
    allDigits [0, 9] = true ∧ allDigits [9, 9, 9] = true := by decide

theorem witness_MultiplyLaws : (0 < value [1] ∧ 0 < value [9, 9]) ∧ value [0, 0] = 0 ∧ value [] = 0 := by decide

theorem witness_DivideIsExactQuotient :
    allDigits (nines 77) = true ∧ divide (nines 77) (2 ^ 256 - 1) = .ok [0] ∧ divide [1, 0, 0, 0, 0] 4 = .ok [2, 5, 0, 0] := by
  decide +kernel

theorem witness_DivideRangeExactly :
    allDigits (nines 78) = true ∧ RemainderExceeds (nines 78) (2 ^ 256 - 1) ∧ ¬RemainderExceeds (nines 77) (2 ^ 256 - 1) ∧
    11579208923731619542357098500868790785326998466564056403945758400791312963993 ≤ 2 ^ 256 / 10 :=
  ⟨by decide +kernel, ⟨77, by decide +kernel, by decide +kernel⟩, by unfold RemainderExceeds; decide +kernel,
    by decide +kernel⟩

theorem witness_AddressMap : regAt 0x01C = .reserved ∧ regAt 0x02C = .len 3 ∧ regAt 0x17C = .mag 3 7 ∧
    regAt 0x5FC = .window 3 31 ∧ regAt 0x600 = .reserved ∧ regAt 0xFFC = .reserved := by decide +kernel

/-- For DataRegisterWrites, DigitWindowPacking, MagnitudeWordOrder: an idle state. -/
theorem witness_idle_register_access : busyBit usedState.status = false ∧ usedState.inFlight = none := by
  decide +kernel

/-- For ReservedOffsetsAndBits: the ends of every reserved range; a state with the invariant is usedState. -/
theorem witness_ReservedOffsetsAndBits : StateInv usedState ∧ 0x030 % 4 = 0 ∧ 0x0FC % 4 = 0 ∧ 0x0FC ≤ 0x0FF ∧
    0x180 % 4 = 0 ∧ 0x3FC % 4 = 0 ∧ 0x600 % 4 = 0 ∧ 0xFFC % 4 = 0 ∧ 0xFFC ≤ 0xFFF :=
  ⟨usedState_inv, by decide⟩

/-- For ReadsHaveNoSideEffect, BusyReadsOfDataAreFree and BusyWritesAreIgnored: a state in its BUSY window. -/
theorem witness_busy_register_access : busyBit (inFlightState 1#32 3 []).status = true ∧ Reg.isData .status = false := by
  decide +kernel

/-- The host has its turn in an idle state with an operation pending. -/
theorem usedState_hostTurn (op : HostOp) (rest : List HostOp) :
    HostTurn { usedState with host := op :: rest } rest { usedState with host := rest } := .inl ⟨rfl, rfl⟩

/-- The host has its turn in a BUSY window with a cycle left to wait. -/
theorem inFlightState_hostTurn (w : Word) (n : Nat) (op : HostOp) (rest : List HostOp) :
    HostTurn (inFlightState w (n + 1) (op :: rest)) rest (inFlightState w n rest) := .inr ⟨_, n, rfl, rfl, rfl⟩

theorem witness_UnsupportedAccessRefused :
    (HostTurn { usedState with host := [.read 8 0x004] } [] { usedState with host := [] } ∧ 8 ≠ 32) ∧
    HostTurn (inFlightState 1#32 1 [.write 32 0x006 0#32]) [] (inFlightState 1#32 0 []) ∧ 0x006 % 4 ≠ 0 :=
  ⟨⟨usedState_hostTurn _ _, by decide⟩, inFlightState_hostTurn _ _ _ _, by decide⟩

/-- Both turns of the host, BUSY 0 and 1, the last offset of the space and the first beyond it, a guarded register. -/
theorem witness_HostAccessReachesRegister :
    (HostTurn { usedState with host := [.read 32 0xFFC] } [] { usedState with host := [] } ∧
      busyBit usedState.status = false ∧ 0xFFC < 4096 ∧ 0xFFC % 4 = 0 ∧ 4096 % 4 = 0) ∧
    HostTurn (inFlightState 1#32 1 [.write 32 0x00C 2#32]) [] (inFlightState 1#32 0 []) ∧
      busyBit (inFlightState 1#32 1 [.write 32 0x00C 2#32]).status = true ∧ (regAt 0x00C).isGuarded = true :=
  ⟨⟨usedState_hostTurn _ _, by decide +kernel⟩, inFlightState_hostTurn _ _ _ _, by decide +kernel⟩

theorem witness_RstResetsControl :
    HostTurn { usedState with host := [.rst] } [] { usedState with host := [] } ∧
    HostTurn (inFlightState 7#32 3 [.rst, .idle]) [.idle] (inFlightState 7#32 2 [.idle]) :=
  ⟨usedState_hostTurn _ _, inFlightState_hostTurn _ _ _ _⟩

theorem witness_WaitEndsWhenNotBusy :
    (HostTurn (inFlightState 1#32 1 [.wait]) [] (inFlightState 1#32 0 []) ∧
      busyBit (inFlightState 1#32 1 [.wait]).status = true) ∧
    HostTurn { usedState with host := [.wait] } [] { usedState with host := [] } ∧ busyBit usedState.status = false :=
  ⟨⟨inFlightState_hostTurn _ _ _ _, by decide +kernel⟩, usedState_hostTurn _ _, by decide +kernel⟩

/-- Both turns of the host; the covered words at LEN 0, 8, 9, 256 and 511. -/
theorem witness_GetdReadsLenThenWindows :
    (HostTurn (inFlightState 1#32 1 [.getd 3]) [] (inFlightState 1#32 0 []) ∧
      busyBit (inFlightState 1#32 1 [.getd 3]).status = true) ∧
    (HostTurn { usedState with host := [.getd 3] } [] { usedState with host := [] } ∧ busyBit usedState.status = false) ∧
    windowReads 3 0 = [] ∧ windowReads 3 8 = [.read 32 0x580] ∧ windowReads 3 9 = [.read 32 0x580, .read 32 0x584] ∧
    (windowReads 3 256).getLast? = some (.read 32 0x5FC) ∧ windowReads 3 511 = windowReads 3 256 :=
  ⟨⟨inFlightState_hostTurn _ _ _ _, by decide +kernel⟩, ⟨usedState_hostTurn _ _, by decide +kernel⟩, by decide⟩

theorem witness_DisciplinedHostLosesNothing :
    ∃ f t, StateInv (inFlightState 1#32 1 [.write 32 0x004 1#32]) ∧
      (inFlightState 1#32 1 [.write 32 0x004 1#32]).inFlight = some f ∧ f.wait = 0 + 1 ∧
      (HostOp.write 32 0x004 1#32).disciplined = true ∧ HostOp.wait.disciplined = true ∧
      step (inFlightState 1#32 1 [.write 32 0x004 1#32]) = .next t :=
  ⟨_, _, inFlightState_inv _ _ _, rfl, rfl, by decide, by decide, rfl⟩

theorem witness_IrqFollowsDone : (∃ t, exec (.ovchk 0) usedState = .next t) ∧ (0x2#32).getLsbD 1 = true :=
  ⟨⟨_, rfl⟩, by decide⟩

theorem witness_IdleAfterReset : ∃ s u : State, s = u.assertRst ∧ u = inFlightState 1#32 1 [] := ⟨_, _, rfl, rfl⟩

end Sys2Proof.Tests
end

/-! The register file's control side (spec/10_state.md R22, R23, R26, R34, R36): ID, CFG, CTRL and STATUS under host reads
and writes, and STATUS at acceptance. -/

namespace Sys2Proof.Machine

/-! ### Accesses that BUSY does not affect -/

/-- A register outside the list of R48 reads as it stands, whatever BUSY is. -/
theorem State.busRead_of_not_data (s : State) {r : Reg} (h : r.isData = false) : s.busRead r = (s.readReg r, s) := by
  obtain ⟨hread, -⟩ | ⟨-, -, hdata⟩ := s.busRead_cases r
  · exact hread
  · rw [h] at hdata; cases hdata

/-- A write to a register outside the list of R49 is not lost, whatever BUSY is. -/
theorem State.busWrite_of_not_guarded (s : State) {r : Reg} (v : Word) (h : r.isGuarded = false) :
    s.busWrite r v = s.writeReg r v := by
  obtain ⟨-, -, hguarded⟩ | ⟨hwrite, -⟩ := s.busWrite_cases r v
  · rw [h] at hguarded; cases hguarded
  · exact hwrite

@[simp] theorem State.busRead_id (s : State) : s.busRead .id = (Config.idValue, s) := s.busRead_of_not_data rfl
@[simp] theorem State.busRead_cfg (s : State) : s.busRead .cfg = (Config.cfgValue, s) := s.busRead_of_not_data rfl
@[simp] theorem State.busRead_ctrl (s : State) : s.busRead .ctrl = (s.ctrl, s) := s.busRead_of_not_data rfl

@[simp] theorem State.busWrite_id (s : State) (v : Word) : s.busWrite .id v = s := s.busWrite_of_not_guarded v rfl
@[simp] theorem State.busWrite_cfg (s : State) (v : Word) : s.busWrite .cfg v = s := s.busWrite_of_not_guarded v rfl
@[simp] theorem State.busWrite_ctrl (s : State) (v : Word) : s.busWrite .ctrl v = { s with ctrl := keepLow 1 v } :=
  s.busWrite_of_not_guarded v rfl
@[simp] theorem State.busWrite_status (s : State) (v : Word) :
    s.busWrite .status v = { s with status := statusWrite v s.status } := s.busWrite_of_not_guarded v rfl

/-! ### The bits a write leaves -/

/-- The stored CTRL word keeps IE from the written value (R26). -/
@[simp] theorem ieBit_keepLow_one (v : Word) : ieBit (keepLow 1 v) = v.getLsbD 0 := by
  rw [ieBit, getLsbD_keepLow 1 0 v (by decide), decide_eq_true Nat.one_pos, Bool.true_and]

/-- A word of which `n` bits are kept has only zeros from bit `n` on. -/
theorem getLsbD_keepLow_of_le {n i : Nat} (v : Word) (hn : n < 32) (hi : n ≤ i) : (keepLow n v).getLsbD i = false := by
  rw [getLsbD_keepLow n i v hn, decide_eq_false (Nat.not_lt.mpr hi), Bool.false_and]

/-- A STATUS write leaves every bit but DONE, ERR and WBUSY (R36). -/
theorem getLsbD_statusWrite_of_ignored (v st : Word) {i : Nat} (hi : i = 0 ∨ 4 ≤ i) :
    (statusWrite v st).getLsbD i = st.getLsbD i := by
  have houtside : ¬(1 ≤ i ∧ i ≤ 3) := by omega
  simp [getLsbD_statusWrite, houtside]

/-! ### The obligations -/

/-- Settles O14: STATUS at acceptance is `statusAccept`, read field by field. -/
theorem acceptanceStatus : Obligations.AcceptanceStatus := by
  intro s w n
  rw [State.accept_status]
  exact ⟨busyBit_statusAccept _, doneBit_statusAccept _, errBit_statusAccept _, ecodeField_statusAccept _,
    wbusyBit_statusAccept _⟩

/-- Settles O42: neither register is data or guarded, so BUSY makes no difference; the fields are those of the constants. -/
theorem idAndCfgAreConstant : Obligations.IdAndCfgAreConstant := by
  intro s v
  exact ⟨s.busRead_id, s.busWrite_id v, by decide, by decide, by decide,
    s.busRead_cfg, s.busWrite_cfg v, by decide, by decide, by decide, by decide, by decide⟩

/-- Settles O44: CTRL is not guarded, so the write stores bit 0 of the value whatever BUSY is. -/
theorem ctrlWrite : Obligations.CtrlWrite := by
  intro s v
  simp only [State.busWrite_ctrl, State.busRead_ctrl]
  exact ⟨trivial, ieBit_keepLow_one v, fun _ hi => getLsbD_keepLow_of_le v (by decide) hi⟩

/-- Settles O46: STATUS is not guarded, so the write is `statusWrite`, read bit by bit. -/
theorem statusWriteOneToClear : Obligations.StatusWriteOneToClear := by
  intro s v
  simp only [State.busWrite_status]
  exact ⟨trivial, doneBit_statusWrite v _, errBit_statusWrite v _, wbusyBit_statusWrite v _,
    fun _ hi => getLsbD_statusWrite_of_ignored v _ hi⟩

end Sys2Proof.Machine

/-! The register space (spec/20_memory.md R45, R49): the digit window outside the BUSY window, and host writes within it. -/

namespace Sys2Proof.Machine

/-! ### What BUSY makes of an access -/

/-- With BUSY = 0 every register reads as it stands. -/
theorem State.busRead_of_idle {s : State} (r : Reg) (h : busyBit s.status = false) : s.busRead r = (s.readReg r, s) := by
  obtain ⟨hread, -⟩ | ⟨-, hbusy, -⟩ := s.busRead_cases r
  · exact hread
  · rw [h] at hbusy; cases hbusy

/-- With BUSY = 0 no write is lost. -/
theorem State.busWrite_of_idle {s : State} (r : Reg) (v : Word) (h : busyBit s.status = false) :
    s.busWrite r v = s.writeReg r v := by
  obtain ⟨-, hbusy, -⟩ | ⟨hwrite, -⟩ := s.busWrite_cases r v
  · rw [h] at hbusy; cases hbusy
  · exact hwrite

/-- With BUSY = 1 a write to a register of R49's list sets WBUSY and nothing else. -/
theorem State.busWrite_of_busy_guarded {s : State} {r : Reg} (v : Word) (hbusy : busyBit s.status = true)
    (hguarded : r.isGuarded = true) : s.busWrite r v = { s with status := statusLost s.status } := by
  obtain ⟨hlost, -, -⟩ | ⟨-, hidle | hfree⟩ := s.busWrite_cases r v
  · exact hlost
  · rw [hbusy] at hidle; cases hidle
  · rw [hguarded] at hfree; cases hfree

/-- A lost write leaves every bit of STATUS but WBUSY. -/
theorem getLsbD_statusLost_of_ne (st : Word) {i : Nat} (hi : i ≠ 3) : (statusLost st).getLsbD i = st.getLsbD i := by
  rw [getLsbD_statusLost, if_neg hi]

@[simp] theorem State.busWrite_rscale (s : State) (v : Word) : s.busWrite .rscale v = s := s.busWrite_of_not_guarded v rfl
@[simp] theorem State.busWrite_reserved (s : State) (v : Word) : s.busWrite .reserved v = s :=
  s.busWrite_of_not_guarded v rfl

/-! ### The write of a window word -/

/-- The written register keeps its LEN and gets the window word in its cells (R45). -/
theorem State.writeReg_window_d_self (s : State) (k : DIdx) (w : Fin 32) (v : Word) :
    (s.writeReg (.window k w) v).d[k] = { s.d[k] with cells := setWindowWord s.d[k].cells w v } :=
  Vector.getElem_set_self k.isLt

/-- A window write leaves the other digit registers (R45). -/
theorem State.writeReg_window_d_of_ne (s : State) {k j : DIdx} (w : Fin 32) (v : Word) (h : j ≠ k) :
    (s.writeReg (.window k w) v).d[j] = s.d[j] :=
  Vector.getElem_set_ne k.isLt j.isLt fun hkj => h (Fin.ext hkj.symm)

/-- Cell 8w + j of the written window word is bits [4j + 3 : 4j] of the value (R45). -/
theorem getElem_setWindowWord_of_mem (cells : Vector Cell 256) (w : Fin 32) (x : Word) (j : Nat) (hj : j < 8) :
    (setWindowWord cells w x)[8 * w.val + j]'(by omega) = x.extractLsb' (4 * j) 4 := by
  have hword : (8 * w.val + j) / 8 = w.val := by omega
  have hplace : (8 * w.val + j) % 8 = j := by omega
  rw [getElem_setWindowWord, if_pos hword, hplace]

/-- A cell of another window word stays as it is (R45). -/
theorem getElem_setWindowWord_of_ne (cells : Vector Cell 256) (w : Fin 32) (x : Word) (i : Nat) (hi : i < 256)
    (h : i / 8 ≠ w.val) : (setWindowWord cells w x)[i] = cells[i] := by
  rw [getElem_setWindowWord, if_neg h]

/-! ### The obligations -/

/-- Settles O47: with BUSY = 0 the access is the register's own read or write, and the written register differs from the
old one in the eight cells of the window word. -/
theorem digitWindowPacking : Obligations.DigitWindowPacking := by
  intro s k w v hidle
  simp only [State.busRead_of_idle _ hidle, State.busWrite_of_idle _ v hidle, State.writeReg_window_d_self]
  refine ⟨?read, rfl, trivial, ?otherRegisters, ?otherCells, ?writtenCells⟩
  case read => exact fun j b hj hb => getLsbD_windowWord _ w j b hj hb
  case otherRegisters => exact fun j hj => s.writeReg_window_d_of_ne w v hj
  case otherCells => exact fun i hi hiw => getElem_setWindowWord_of_ne _ w v i hi hiw
  case writtenCells => exact fun j hj => getElem_setWindowWord_of_mem _ w v j hj

/-- Settles O52: the registers of the first list are guarded, so the write is `statusLost`; the others are not, so the
write is the register's own. -/
theorem busyWritesAreIgnored : Obligations.BusyWritesAreIgnored := by
  intro s v hbusy
  refine ⟨?guarded, s.busWrite_of_not_guarded v rfl, s.busWrite_of_not_guarded v rfl, ?ignored⟩
  case guarded =>
    intro k w x r hr
    have hguarded : r.isGuarded = true := by obtain rfl | rfl | rfl | rfl | rfl := hr <;> rfl
    rw [State.busWrite_of_busy_guarded v hbusy hguarded]
    exact ⟨rfl, wbusyBit_statusLost _, fun _ hi => getLsbD_statusLost_of_ne _ hi⟩
  case ignored =>
    rintro r (rfl | rfl | rfl | rfl)
    · exact s.busWrite_id v
    · exact s.busWrite_cfg v
    · exact s.busWrite_rscale v
    · exact s.busWrite_reserved v

end Sys2Proof.Machine

/-! The opcode map (spec/30_encoding.md R66): what a row requires of the fields of a word, and that the decoder accepts a
word exactly when it meets what a row requires. -/

namespace Sys2Proof

/-! ### A word and its fields -/

theorem field_and (x y : Word) (lo n : Nat) : field (x &&& y) lo n = field x lo n &&& field y lo n := by
  rw [field, BitVec.extractLsb'_and, BitVec.toNat_and]; rfl

theorem fieldOpc_lt (w : Word) : fieldOpc w < 2 ^ 6 := BitVec.isLt _
theorem fieldDs_lt (w : Word) : fieldDs w < 2 ^ 1 := BitVec.isLt _
theorem fieldRsv_lt (w : Word) : fieldRsv w < 2 ^ 3 := BitVec.isLt _
theorem fieldImm_lt (w : Word) : fieldImm w < 2 ^ 8 := BitVec.isLt _
theorem fieldImmb_lt (w : Word) : fieldImmb w < 2 ^ 8 := BitVec.isLt _

theorem field_eq_div_mod (w : Word) (lo n : Nat) : field w lo n = w.toNat / 2 ^ lo % 2 ^ n := by
  rw [field, BitVec.extractLsb'_toNat, Nat.shiftRight_eq_div_pow]

/-- The fields of C32 cover the word: two words with the same eight fields are the same word (R62). -/
theorem word_eq_iff_fields (x y : Word) :
    x = y ↔ fieldOpc x = fieldOpc y ∧ (fieldRd x).val = (fieldRd y).val ∧ (fieldRa x).val = (fieldRa y).val ∧
      (fieldRb x).val = (fieldRb y).val ∧ fieldDs x = fieldDs y ∧ fieldRsv x = fieldRsv y ∧
      fieldImm x = fieldImm y ∧ fieldImmb x = fieldImmb y := by
  constructor
  · rintro rfl
    exact ⟨rfl, rfl, rfl, rfl, rfl, rfl, rfl, rfl⟩
  · intro h
    simp only [fieldRd_val, fieldRa_val, fieldRb_val, fieldOpc, fieldDs, fieldRsv, fieldImm, fieldImmb,
      field_eq_div_mod] at h
    apply BitVec.eq_of_toNat_eq
    omega

/-- Masking a word masks each of its fields. -/
theorem and_eq_iff_fields (w m p : Word) :
    w &&& m = p ↔ fieldOpc w &&& fieldOpc m = fieldOpc p ∧
      (fieldRd w).val &&& (fieldRd m).val = (fieldRd p).val ∧ (fieldRa w).val &&& (fieldRa m).val = (fieldRa p).val ∧
      (fieldRb w).val &&& (fieldRb m).val = (fieldRb p).val ∧ fieldDs w &&& fieldDs m = fieldDs p ∧
      fieldRsv w &&& fieldRsv m = fieldRsv p ∧ fieldImm w &&& fieldImm m = fieldImm p ∧
      fieldImmb w &&& fieldImmb m = fieldImmb p := by
  simp only [word_eq_iff_fields, fieldRd_val, fieldRa_val, fieldRb_val, fieldOpc, fieldDs, fieldRsv, fieldImm, fieldImmb,
    field_and]

/-! ### What a row of the map requires -/

/-- A row of R66 by its columns: the values it requires of OPC and DS, and which of RD, RB, IMM and IMMB its form does not
use and so requires to be 0. RSV is 0 and RA is used in every row. -/
structure Form where
  mnemonic : String
  opc : Nat
  ds : Nat
  rdZero : Bool
  rbZero : Bool
  immZero : Bool
  immbZero : Bool

/-- The word meets what the row requires. -/
structure Form.Holds (f : Form) (w : Word) : Prop where
  opc : fieldOpc w = f.opc
  ds : fieldDs w = f.ds
  rsv : fieldRsv w = 0
  rd : f.rdZero = true → fieldRd w = 0
  rb : f.rbZero = true → fieldRb w = 0
  imm : f.immZero = true → fieldImm w = 0
  immb : f.immbZero = true → fieldImmb w = 0

/-- The form of a command. -/
def Instr.form : Instr → Form
  | .todig _ _ => ⟨"TODIG", 1, 0, false, true, true, true⟩
  | .fromdig _ _ => ⟨"FROMDIG", 2, 0, false, true, true, true⟩
  | .dmul _ _ _ => ⟨"DMUL", 3, 0, false, false, true, true⟩
  | .ddiv _ _ _ => ⟨"DDIV", 4, 0, false, false, true, true⟩
  | .dalign _ _ _ _ => ⟨"DALIGN", 5, 0, false, true, false, false⟩
  | .ovchk _ => ⟨"OVCHK", 6, 0, true, true, true, true⟩
  | .muldec _ _ _ _ => ⟨"MULDEC", 7, 0, false, false, false, true⟩
  | .muldecDefault _ _ _ => ⟨"MULDEC.DEFAULT", 7, 1, false, false, true, true⟩
  | .divdec _ _ _ _ => ⟨"DIVDEC", 8, 0, false, false, false, true⟩
  | .divdecDefault _ _ _ => ⟨"DIVDEC.DEFAULT", 8, 1, false, false, true, true⟩

theorem Instr.form_mnemonic (i : Instr) : i.form.mnemonic = i.mnemonic := by cases i <;> rfl
theorem Instr.form_opc_lt (i : Instr) : i.form.opc < 64 := by cases i <;> exact of_decide_eq_true rfl
theorem Instr.form_ds_lt (i : Instr) : i.form.ds < 2 := by cases i <;> exact of_decide_eq_true rfl

/-! ### The row of a form -/

/-- The bits of a field of `n` bits that a row fixes to 0 where `b` holds and leaves free elsewhere. -/
def zeroBits (b : Bool) (n : Nat) : Nat := if b then 2 ^ n - 1 else 0

/-- The bits that a row fixes: all of OPC, DS and RSV, and the fields its form does not use (R66). -/
def fixedBits (rdZero rbZero immZero immbZero : Bool) : Word :=
  wordOf 63 (zeroBits rdZero 2) 0 (zeroBits rbZero 2) 1 (zeroBits immZero 8) (zeroBits immbZero 8) ||| 0xE000#32

/-- The row of R66 with the columns of a form. -/
def Form.row (f : Form) : Row := ⟨f.mnemonic, wordOf f.opc 0 0 0 f.ds 0 0, fixedBits f.rdZero f.rbZero f.immZero f.immbZero⟩

theorem Instr.form_row_mem (i : Instr) : i.form.row ∈ opcodeMap := by
  cases i <;> simp only [Instr.form] <;> decide

theorem exists_form_row_of_mem {r : Row} (h : r ∈ opcodeMap) : ∃ i : Instr, i.form.row = r := by
  simp only [opcodeMap, List.mem_cons, List.not_mem_nil, or_false] at h
  obtain rfl | rfl | rfl | rfl | rfl | rfl | rfl | rfl | rfl | rfl := h
  · exact ⟨.todig 0 0, by decide⟩
  · exact ⟨.fromdig 0 0, by decide⟩
  · exact ⟨.dmul 0 0 0, by decide⟩
  · exact ⟨.ddiv 0 0 0, by decide⟩
  · exact ⟨.dalign 0 0 0 0, by decide⟩
  · exact ⟨.ovchk 0, by decide⟩
  · exact ⟨.muldec 0 0 0 0, by decide⟩
  · exact ⟨.muldecDefault 0 0 0, by decide⟩
  · exact ⟨.divdec 0 0 0 0, by decide⟩
  · exact ⟨.divdecDefault 0 0 0, by decide⟩

/-- A row's mask, field by field: every bit of OPC, DS and RSV, no bit of RA, all or none of the others. -/
theorem fields_fixedBits : ∀ rdZero rbZero immZero immbZero : Bool,
    let m := fixedBits rdZero rbZero immZero immbZero
    fieldOpc m = 2 ^ 6 - 1 ∧ (fieldRd m).val = zeroBits rdZero 2 ∧ (fieldRa m).val = 0 ∧
    (fieldRb m).val = zeroBits rbZero 2 ∧ fieldDs m = 2 ^ 1 - 1 ∧ fieldRsv m = 2 ^ 3 - 1 ∧
    fieldImm m = zeroBits immZero 8 ∧ fieldImmb m = zeroBits immbZero 8 := by
  decide

/-- A masked value is 0 exactly when the row leaves the field free or the value is 0. -/
theorem and_zeroBits_eq_zero {x n : Nat} (b : Bool) (hx : x < 2 ^ n) :
    x &&& zeroBits b n = 0 ↔ (b = true → x = 0) := by
  cases b with
  | false => simp [zeroBits]
  | true => simp [zeroBits, Nat.mod_eq_of_lt hx]

/-- The row of a form matches the words that meet what the form requires, and no others (R66). -/
theorem Form.row_matchesWord {f : Form} (hopc : f.opc < 64) (hds : f.ds < 2) (w : Word) :
    f.row.matchesWord w = true ↔ f.Holds w := by
  obtain ⟨mopc, mrd, mra, mrb, mds, mrsv, mimm, mimmb⟩ := fields_fixedBits f.rdZero f.rbZero f.immZero f.immbZero
  obtain ⟨popc, prd, pra, prb, pds, prsv, pimm, pimmb⟩ := fields_wordOf (opc := f.opc) (rd := 0) (ra := 0) (rb := 0)
    (ds := f.ds) (imm := 0) (immb := 0) hopc (by decide) (by decide) (by decide) hds (by decide) (by decide)
  rw [Row.matchesWord, beq_iff_eq, Form.row, and_eq_iff_fields, mopc, mrd, mra, mrb, mds, mrsv, mimm, mimmb,
    popc, prd, pra, prb, pds, prsv, pimm, pimmb, Nat.and_zero,
    Nat.and_two_pow_sub_one_of_lt_two_pow (fieldOpc_lt w), Nat.and_two_pow_sub_one_of_lt_two_pow (fieldDs_lt w),
    Nat.and_two_pow_sub_one_of_lt_two_pow (fieldRsv_lt w), and_zeroBits_eq_zero _ (fieldRd w).isLt,
    and_zeroBits_eq_zero _ (fieldRb w).isLt, and_zeroBits_eq_zero _ (fieldImm_lt w),
    and_zeroBits_eq_zero _ (fieldImmb_lt w)]
  simp only [Fin.val_eq_zero_iff, true_and]
  constructor
  · rintro ⟨hopc, hrd, hrb, hds, hrsv, himm, himmb⟩
    exact ⟨hopc, hds, hrsv, hrd, hrb, himm, himmb⟩
  · rintro ⟨hopc, hds, hrsv, hrd, hrb, himm, himmb⟩
    exact ⟨hopc, hrd, hrb, hds, hrsv, himm, himmb⟩

/-- A command's row matches the words that meet what its form requires. -/
theorem Instr.form_row_matchesWord (i : Instr) (w : Word) : i.form.row.matchesWord w = true ↔ i.form.Holds w :=
  Form.row_matchesWord i.form_opc_lt i.form_ds_lt w

/-! ### No word in two rows -/

/-- Two rows that require different values of a bit that both fix. -/
def Row.Conflicts (r q : Row) : Prop := r.pattern &&& q.mask ≠ q.pattern &&& r.mask

theorem Row.Conflicts.not_both_match {r q : Row} (h : r.Conflicts q) {w : Word} (hr : r.matchesWord w = true)
    (hq : q.matchesWord w = true) : False := by
  rw [Row.matchesWord, beq_iff_eq] at hr hq
  apply h
  rw [← hr, ← hq, BitVec.and_assoc, BitVec.and_assoc, BitVec.and_comm r.mask]

theorem opcodeMap_pairwise_conflicts : opcodeMap.Pairwise Row.Conflicts := by
  unfold Row.Conflicts; decide

/-- At most one row of the map matches a word (R66). -/
theorem matching_rows_length_le_one (w : Word) : (opcodeMap.filter (·.matchesWord w)).length ≤ 1 := by
  have hpair := opcodeMap_pairwise_conflicts.filter (·.matchesWord w)
  have hmatch : ∀ r ∈ opcodeMap.filter (·.matchesWord w), r.matchesWord w = true := fun r hr =>
    (List.mem_filter.mp hr).2
  generalize opcodeMap.filter (·.matchesWord w) = rows at hpair hmatch
  match rows with
  | [] => exact Nat.zero_le 1
  | [r] => exact Nat.le_refl 1
  | r :: q :: rest =>
    have hconf : r.Conflicts q := List.rel_of_pairwise_cons hpair List.mem_cons_self
    exact (hconf.not_both_match (hmatch r (by simp)) (hmatch q (by simp))).elim

/-! ### What the decoder accepts -/

/-- When a plain form is accepted (R66). -/
theorem decodePlain_eq_ok_iff {w : Word} {unused : Bool} {i j : Instr} :
    decodePlain w unused i = .ok j ↔
      fieldDs w = 0 ∧ unused = true ∧ fieldImm w = 0 ∧ fieldImmb w = 0 ∧ i = j := by
  unfold decodePlain
  split_ifs with hds hrest
  · simp [hds]
  · simp_all
  · simp_all

/-- When a composite command is accepted, in its explicit or its default form (R65). -/
theorem decodeComposite_eq_ok_iff {w : Word} {explicit : Nat → Instr} {default j : Instr} :
    decodeComposite w explicit default = .ok j ↔
      fieldImmb w = 0 ∧ (fieldDs w = 0 ∧ explicit (fieldImm w) = j ∨ fieldDs w = 1 ∧ fieldImm w = 0 ∧ default = j) := by
  have hlt : fieldDs w < 2 := fieldDs_lt w
  unfold decodeComposite
  split_ifs with himmb hds himm
  · simp [himmb]
  · simp_all
  · have : fieldDs w = 1 := by omega
    simp_all
  · simp_all

/-- A word that decodes meets what the form of its command requires (R66). -/
theorem form_holds_of_decode {w : Word} {i : Instr} (h : decode w = .ok i) : i.form.Holds w := by
  have hrsv : fieldRsv w = 0 := by
    by_contra hne
    rw [decode, if_pos hne] at h
    cases h
  rw [decode, if_neg (not_not.mpr hrsv)] at h
  split at h
  case h_1 hopc | h_2 hopc =>
    obtain ⟨hds, hrb, himm, himmb, rfl⟩ := decodePlain_eq_ok_iff.mp h
    exact ⟨hopc, hds, hrsv, nofun, fun _ => of_decide_eq_true hrb, fun _ => himm, fun _ => himmb⟩
  case h_3 hopc | h_4 hopc =>
    obtain ⟨hds, -, himm, himmb, rfl⟩ := decodePlain_eq_ok_iff.mp h
    exact ⟨hopc, hds, hrsv, nofun, nofun, fun _ => himm, fun _ => himmb⟩
  case h_5 hopc =>
    split_ifs at h with hds hrb
    cases h
    exact ⟨hopc, not_not.mp hds, hrsv, nofun, fun _ => hrb, nofun, nofun⟩
  case h_6 hopc =>
    obtain ⟨hds, hzero, himm, himmb, rfl⟩ := decodePlain_eq_ok_iff.mp h
    obtain ⟨hrd, hrb⟩ := Bool.and_eq_true_iff.mp hzero
    exact ⟨hopc, hds, hrsv, fun _ => of_decide_eq_true hrd, fun _ => of_decide_eq_true hrb, fun _ => himm,
      fun _ => himmb⟩
  case h_7 hopc | h_8 hopc =>
    obtain ⟨himmb, ⟨hds, rfl⟩ | ⟨hds, himm, rfl⟩⟩ := decodeComposite_eq_ok_iff.mp h
    · exact ⟨hopc, hds, hrsv, nofun, nofun, nofun, fun _ => himmb⟩
    · exact ⟨hopc, hds, hrsv, nofun, nofun, fun _ => himm, fun _ => himmb⟩
  case h_9 => cases h

/-- The command of the same form whose operands are the fields of a word (R62, R66). -/
def Instr.withOperandsOf (w : Word) : Instr → Instr
  | .todig _ _ => .todig (fieldRd w) (fieldRa w)
  | .fromdig _ _ => .fromdig (fieldRd w) (fieldRa w)
  | .dmul _ _ _ => .dmul (fieldRd w) (fieldRa w) (fieldRb w)
  | .ddiv _ _ _ => .ddiv (fieldRd w) (fieldRa w) (fieldRb w)
  | .dalign _ _ _ _ => .dalign (fieldRd w) (fieldRa w) (fieldImmb w) (fieldImm w)
  | .ovchk _ => .ovchk (fieldRa w)
  | .muldec _ _ _ _ => .muldec (fieldRd w) (fieldRa w) (fieldRb w) (fieldImm w)
  | .muldecDefault _ _ _ => .muldecDefault (fieldRd w) (fieldRa w) (fieldRb w)
  | .divdec _ _ _ _ => .divdec (fieldRd w) (fieldRa w) (fieldRb w) (fieldImm w)
  | .divdecDefault _ _ _ => .divdecDefault (fieldRd w) (fieldRa w) (fieldRb w)

theorem Instr.withOperandsOf_mnemonic (w : Word) (i : Instr) : (i.withOperandsOf w).mnemonic = i.mnemonic := by
  cases i <;> rfl

/-- A word that meets what a form requires decodes to the command of that form with the word's operands (R66). -/
theorem decode_of_form_holds {w : Word} {i : Instr} (h : i.form.Holds w) : decode w = .ok (i.withOperandsOf w) := by
  obtain ⟨hopc, hds, hrsv, hrd, hrb, himm, himmb⟩ := h
  rw [decode, if_neg (not_not.mpr hrsv), hopc]
  cases i with
  | todig | fromdig =>
    exact decodePlain_eq_ok_iff.mpr ⟨hds, decide_eq_true (hrb rfl), himm rfl, himmb rfl, rfl⟩
  | dmul | ddiv => exact decodePlain_eq_ok_iff.mpr ⟨hds, rfl, himm rfl, himmb rfl, rfl⟩
  | dalign => exact (if_neg (not_not.mpr hds)).trans (if_pos (hrb rfl))
  | ovchk =>
    have hzero := Bool.and_eq_true_iff.mpr ⟨decide_eq_true (hrd rfl), decide_eq_true (hrb rfl)⟩
    exact decodePlain_eq_ok_iff.mpr ⟨hds, hzero, himm rfl, himmb rfl, rfl⟩
  | muldec | divdec => exact decodeComposite_eq_ok_iff.mpr ⟨himmb rfl, .inl ⟨hds, rfl⟩⟩
  | muldecDefault | divdecDefault => exact decodeComposite_eq_ok_iff.mpr ⟨himmb rfl, .inr ⟨hds, himm rfl, rfl⟩⟩

/-! ### The obligations -/

/-- Settles O6: a command's row matches exactly the words that its form admits, and these are the words that decode to a
command of that form. -/
theorem legalWordsMatchOneRow : Obligations.LegalWordsMatchOneRow := by
  intro w
  refine ⟨matching_rows_length_le_one w, fun name => ⟨?matchOfDecode, ?decodeOfMatch⟩⟩
  case matchOfDecode =>
    rintro ⟨i, hdec, rfl⟩
    exact ⟨i.form.row, i.form_row_mem, i.form_mnemonic, (i.form_row_matchesWord w).mpr (form_holds_of_decode hdec)⟩
  case decodeOfMatch =>
    rintro ⟨r, hr, rfl, hmatch⟩
    obtain ⟨j, rfl⟩ := exists_form_row_of_mem hr
    have hdec := decode_of_form_holds ((j.form_row_matchesWord w).mp hmatch)
    exact ⟨j.withOperandsOf w, hdec, (j.withOperandsOf_mnemonic w).trans j.form_mnemonic.symm⟩

/-- Settles O8: each of the nineteen words of R75 is decoded. -/
theorem encodingExamples : Obligations.EncodingExamples := by
  refine ⟨?_, ?_, ?_, ?_, ?_, ?_, ?_, ?_, ?_, ?_, ?_, ?_, ?illegal⟩
  case illegal =>
    intro w hw
    simp only [List.mem_cons, List.not_mem_nil, or_false] at hw
    obtain rfl | rfl | rfl | rfl | rfl | rfl | rfl := hw <;> decide
  all_goals decide

end Sys2Proof

/-! Digit conversion (spec/40_digit_conversion.md R80 to R84): `digitsOf` and `strip` as the library's digits, TODIG and
FROMDIG without error, and commands run one after another. -/

namespace Sys2Proof.Machine

/-! ### Canonical sequences (R14, R16) -/

/-- The procedure of R81 gives the library's digits. -/
theorem digitsOf_eq_decimal (x : Nat) : digitsOf x = decimal x := by
  rw [digitsOf, decimal, digitLoop_eq_digits x x le_rfl]

@[simp] theorem decimalValue_decimal (x : Nat) : decimalValue (decimal x) = x := by
  unfold decimal
  split
  · next hzero => subst hzero; rfl
  · rw [decimalValue, List.reverse_reverse, Nat.ofDigits_digits]

@[simp] theorem decimalValue_zero_cons (q : DigitSeq) : decimalValue (0 :: q) = decimalValue q := by
  rw [← value_eq_decimalValue, ← value_eq_decimalValue, value, Nat.zero_mul, Nat.zero_add]

@[simp] theorem strip_zero_cons (q : DigitSeq) : strip (0 :: q) = strip q := by simp [strip]

theorem strip_cons_of_ne_zero {x : Nat} (q : DigitSeq) (hx : x ≠ 0) : strip (x :: q) = x :: q := by simp [strip, hx]

/-- A sequence of digits that starts with a digit other than 0 is the decimal sequence of its value. -/
theorem decimal_decimalValue_cons {x : Nat} {q : DigitSeq} (hx : x ≠ 0) (hd : ∀ y ∈ x :: q, y ≤ 9) :
    decimal (decimalValue (x :: q)) = x :: q := by
  have hpos : decimalValue (x :: q) ≠ 0 := by
    rw [← value_eq_decimalValue, value]
    positivity
  have hdigits : Nat.digits 10 (decimalValue (x :: q)) = (x :: q).reverse := by
    apply Nat.digits_ofDigits 10 (by decide)
    · exact fun y hy => Nat.lt_succ_of_le (hd y (List.mem_reverse.mp hy))
    · intro _
      simpa using hx
  rw [decimal, if_neg hpos, hdigits, List.reverse_reverse]

/-- Stripping a sequence of digits gives the decimal sequence of its value (R16). -/
theorem strip_eq_decimal {q : DigitSeq} (hd : ∀ x ∈ q, x ≤ 9) : strip q = decimal (decimalValue q) := by
  induction q with
  | nil => rfl
  | cons x q ih =>
    by_cases hx : x = 0
    · subst hx
      rw [strip_zero_cons, decimalValue_zero_cons, ih fun y hy => hd y (List.mem_cons_of_mem _ hy)]
    · rw [strip_cons_of_ne_zero q hx, decimal_decimalValue_cons hx hd]

/-! ### TODIG and FROMDIG (R80, R82) -/

/-- A 256-bit pattern has at most 78 decimal digits. -/
theorem length_decimal_toNat_le (x : Mag) : (decimal x.toNat).length ≤ 78 :=
  (length_decimal_le_iff x.toNat 78 (by decide)).mpr (x.isLt.trans (by norm_num))

/-- A register that holds the digits of a 256-bit pattern is a readable source (R32). -/
theorem DigitReg.source_of_holds_decimal {r : DigitReg} {x : Mag} (h : r.Holds (decimal x.toNat)) :
    r.Source (decimal x.toNat) :=
  ⟨h, (length_decimal_toNat_le x).trans (by decide), fun _ hy => le_nine_of_mem_decimal hy⟩

/-- TODIG completes without error and writes the digits of its source (R80). -/
theorem exec_todig_wroteDigits (s : State) (rd : DIdx) (ra : MIdx) :
    ∃ t, exec (.todig rd ra) s = .next t ∧ WroteDigits s t rd (decimal s.sources.m[ra].toNat) := by
  have hresult : commandResult (.todig rd ra) s.sources = .ok (.digits rd (decimal s.sources.m[ra].toNat)) := by
    rw [commandResult, todigResult, digitsOf_eq_decimal, uval256]
  refine ⟨_, exec_eq_complete _ s, ?_⟩
  rw [hresult, State.complete_ok]
  exact wroteDigits_completeOk s rd _ ((length_decimal_toNat_le _).trans (by decide))
    fun y hy => (le_nine_of_mem_decimal hy).trans (by decide)

/-- FROMDIG of a readable source of value below 2^256 completes without error and writes the value (R82). -/
theorem exec_fromdig_wroteMag (s : State) (rd : MIdx) (ra : DIdx) {q : DigitSeq} (hsource : s.sources.d[ra].Source q)
    (hlt : decimalValue q < 2 ^ 256) :
    ∃ t, exec (.fromdig rd ra) s = .next t ∧ WroteMag s t rd (BitVec.ofNat 256 (decimalValue q)) := by
  have hresult : commandResult (.fromdig rd ra) s.sources = .ok (.mag rd (BitVec.ofNat 256 (decimalValue q))) := by
    rw [← value_eq_decimalValue] at hlt ⊢
    have hrange : ¬ value q > Config.magMax := Nat.not_lt.mpr (Nat.le_sub_one_of_lt hlt)
    rw [commandResult, fromdigResult, DigitReg.read_of_source hsource]
    exact if_neg hrange
  refine ⟨_, exec_eq_complete _ s, ?_⟩
  rw [hresult, State.complete_ok]
  exact wroteMag_completeOk s rd _

/-! ### Commands one after another (R72) -/

/-- A command that completes without error leaves ERR as acceptance set it, 0, and the next command follows (R34, R35). -/
theorem runCommands_cons_of_completedOk {i : Instr} {s t : State} (rest : List Instr)
    (hexec : exec i (s.accept (encode i) 0) = .next t) (hok : CompletedOk (s.accept (encode i) 0) t) :
    runCommands (i :: rest) s = runCommands rest t := by
  have herr : errBit t.status = false := by
    obtain ⟨-, -, -, hkept⟩ := hok
    rw [errBit, hkept 2 le_rfl, State.accept_status]
    exact errBit_statusAccept _
  simp [runCommands, hexec, herr]

/-- TODIG at the head of a list of commands: the rest runs in a state where D[rd] holds the digits of M[ra], and M is
unchanged (R80). -/
theorem runCommands_todig_cons (s : State) (rd : DIdx) (ra : MIdx) (rest : List Instr) :
    ∃ t, runCommands (.todig rd ra :: rest) s = runCommands rest t ∧ t.m = s.m ∧ t.d[rd].Holds (decimal s.m[ra].toNat) := by
  obtain ⟨t, hexec, hok, -, hm, -, -, hholds⟩ := exec_todig_wroteDigits (s.accept (encode (.todig rd ra)) 0) rd ra
  exact ⟨t, runCommands_cons_of_completedOk rest hexec hok, hm, hholds⟩

/-- FROMDIG of a readable source of value below 2^256 at the head of a list of commands: the rest runs in a state where
M[rd] is the value, and D is unchanged (R82). -/
theorem runCommands_fromdig_cons (s : State) (rd : MIdx) (ra : DIdx) (rest : List Instr) {q : DigitSeq}
    (hsource : s.d[ra].Source q) (hlt : decimalValue q < 2 ^ 256) :
    ∃ t, runCommands (.fromdig rd ra :: rest) s = runCommands rest t ∧ t.d = s.d ∧
      t.m[rd] = BitVec.ofNat 256 (decimalValue q) := by
  obtain ⟨t, hexec, hok, -, hd, -, -, hm⟩ :=
    exec_fromdig_wroteMag (s.accept (encode (.fromdig rd ra)) 0) rd ra hsource hlt
  exact ⟨t, runCommands_cons_of_completedOk rest hexec hok, hd, hm⟩

/-! ### The obligations -/

/-- Settles O34: the digits of a pattern are a readable source of the pattern's value, and the digits of a sequence's
value are the sequence without its leading zeros. -/
theorem conversionRoundTrips : Obligations.ConversionRoundTrips := by
  refine ⟨?todigThenFromdig, ?fromdigThenTodig⟩
  case todigThenFromdig =>
    intro s k a b
    obtain ⟨u, htodig, -, hholds⟩ := runCommands_todig_cons s k a [.fromdig b k]
    have hlt : decimalValue (decimal s.m[a].toNat) < 2 ^ 256 := by
      rw [decimalValue_decimal]
      exact s.m[a].isLt
    obtain ⟨t, hfromdig, -, hm⟩ := runCommands_fromdig_cons u b k [] (DigitReg.source_of_holds_decimal hholds) hlt
    refine ⟨t, htodig.trans hfromdig, ?_⟩
    rw [hm, decimalValue_decimal, BitVec.ofNat_toNat, BitVec.setWidth_eq]
  case fromdigThenTodig =>
    intro s a b k q hsource hle
    have hlt : decimalValue q < 2 ^ 256 := Nat.lt_of_le_sub_one (by decide) hle
    have ⟨_, _, hdigits⟩ := hsource
    obtain ⟨u, hfromdig, -, hm⟩ := runCommands_fromdig_cons s k a [.todig b k] hsource hlt
    obtain ⟨t, htodig, -, hholds⟩ := runCommands_todig_cons u b k []
    refine ⟨t, hfromdig.trans htodig, ?_⟩
    rwa [hm, BitVec.toNat_ofNat, Nat.mod_eq_of_lt hlt, ← strip_eq_decimal hdigits] at hholds

end Sys2Proof.Machine

/-! Alignment (spec/41_scale_align.md R90, R92): what `align` answers in each of its branches, and its value. -/

namespace Sys2Proof.Machine

/-! ### The branches of `align` (R90) -/

/-- At a target scale no smaller than the source scale `align` appends zeros, none when the scales agree. -/
theorem align_of_le (q : DigitSeq) {src tgt : Nat} (h : src ≤ tgt) : align q src tgt = q ++ zeros (tgt - src) := by
  obtain rfl | hlt := h.eq_or_lt
  · simp [align, zeros]
  · exact if_pos hlt

theorem align_of_lt_length {q : DigitSeq} {src tgt : Nat} (h : tgt < src) (hk : src - tgt < q.length) :
    align q src tgt = q.take (q.length - (src - tgt)) := by
  rw [align, if_neg h.not_gt, if_pos h, if_neg hk.not_ge]

theorem align_of_length_le {q : DigitSeq} {src tgt : Nat} (h : tgt < src) (hk : q.length ≤ src - tgt) :
    align q src tgt = [0] := by
  rw [align, if_neg h.not_gt, if_pos h, if_pos hk]

/-! ### Removing trailing digits divides the value -/

theorem allDigits_drop {q : DigitSeq} (h : allDigits q = true) (n : Nat) : allDigits (q.drop n) = true := by
  rw [allDigits, List.all_eq_true] at h ⊢
  exact fun x hx => h x (List.mem_of_mem_drop hx)

/-- Without its last k digits a sequence has its value divided by 10^k: what the removed digits add to the value is below
10^k. -/
theorem value_take_length_sub {q : DigitSeq} {k : Nat} (h : allDigits q = true) (hk : k ≤ q.length) :
    value (q.take (q.length - k)) = value q / 10 ^ k := by
  have hlen : (q.drop (q.length - k)).length = k := by rw [List.length_drop, Nat.sub_sub_self hk]
  have hsplit : value q = value (q.take (q.length - k)) * 10 ^ k + value (q.drop (q.length - k)) := by
    simpa only [List.take_append_drop, hlen] using value_append (q.take (q.length - k)) (q.drop (q.length - k))
  have hlt : value (q.drop (q.length - k)) < 10 ^ k := by
    simpa only [hlen] using value_lt _ (allDigits_drop h (q.length - k))
  rw [hsplit, Nat.add_comm, Nat.add_mul_div_right _ _ (by positivity), Nat.div_eq_of_lt hlt, Nat.zero_add]

/-- A number with at most k digits has quotient 0 by 10^k. -/
theorem value_div_pow_eq_zero {q : DigitSeq} {k : Nat} (h : allDigits q = true) (hk : q.length ≤ k) :
    value q / 10 ^ k = 0 :=
  Nat.div_eq_of_lt ((value_lt q h).trans_le (Nat.pow_le_pow_right (by decide) hk))

/-! ### The obligation -/

/-- Settles O37: appended zeros multiply the value; removed digits divide it, and where every digit would go the quotient
is 0, the value of the `[0]` that `align` answers. -/
theorem alignmentValueLaw : Obligations.AlignmentValueLaw := by
  intro q src tgt hdigits
  refine ⟨fun hle => ?padding, fun hlt => ?truncation⟩
  case padding => rw [align_of_le q hle, value_append, value_zeros, length_zeros, Nat.add_zero]
  case truncation =>
    obtain hk | hk := Nat.lt_or_ge (src - tgt) q.length
    · rw [align_of_lt_length hlt hk, value_take_length_sub hdigits hk.le]
    · rw [align_of_length_le hlt hk, value_div_pow_eq_zero hdigits hk]
      rfl

end Sys2Proof.Machine

/-! The product of digit sequences (spec/42_multiply_kernel.md R100, R103): `multiply` in one equation, and the length of the
canonical sequence of a product. -/

namespace Sys2Proof.Machine

/-! ### The canonical sequence of a number (R16) -/

@[simp] theorem value_digitsOf (x : Nat) : value (digitsOf x) = x := by
  rw [value_eq_decimalValue, digitsOf_eq_decimal, decimalValue_decimal]

/-- A positive number has more than k digits exactly when it is at least 10^k. -/
theorem lt_digitlen_iff {x : Nat} (k : Nat) (hx : 0 < x) : k < digitlen x ↔ 10 ^ k ≤ x := by
  rw [digitlen, digitsOf_eq_decimal, decimal, if_neg hx.ne', List.length_reverse, Nat.lt_digits_length_iff (by decide)]

theorem lt_pow_digitlen {x : Nat} (hx : 0 < x) : x < 10 ^ digitlen x :=
  Nat.not_le.mp fun h => ((lt_digitlen_iff _ hx).mpr h).false

theorem digitlen_pos {x : Nat} (hx : 0 < x) : 0 < digitlen x := (lt_digitlen_iff 0 hx).mpr hx

theorem pow_digitlen_sub_one_le {x : Nat} (hx : 0 < x) : 10 ^ (digitlen x - 1) ≤ x :=
  (lt_digitlen_iff _ hx).mp (Nat.sub_one_lt (digitlen_pos hx).ne')

/-! ### The length of a product (R103) -/

/-- Each factor is below 10 to its length, so the product is below 10 to the sum of the lengths. -/
theorem digitlen_mul_le {x y : Nat} (hx : 0 < x) (hy : 0 < y) : digitlen (x * y) ≤ digitlen x + digitlen y := by
  have hlt : x * y < 10 ^ (digitlen x + digitlen y) := by
    rw [pow_add]
    exact Nat.mul_lt_mul'' (lt_pow_digitlen hx) (lt_pow_digitlen hy)
  exact Nat.not_lt.mp fun h => hlt.not_ge ((lt_digitlen_iff _ (Nat.mul_pos hx hy)).mp h)

/-- Each factor is at least 10 to one less than its length, so the product is at least 10 to two less than the sum. -/
theorem digitlen_add_sub_one_le {x y : Nat} (hx : 0 < x) (hy : 0 < y) :
    digitlen x + digitlen y - 1 ≤ digitlen (x * y) := by
  have hle : 10 ^ (digitlen x - 1 + (digitlen y - 1)) ≤ x * y := by
    rw [pow_add]
    exact Nat.mul_le_mul (pow_digitlen_sub_one_le hx) (pow_digitlen_sub_one_le hy)
  have hlen := (lt_digitlen_iff _ (Nat.mul_pos hx hy)).mpr hle
  omega

/-! ### `multiply` (R100) -/

/-- The product of any two sequences is the canonical sequence of the product of their values: an empty operand has value 0,
whose sequence is the `[0]` that `multiply` answers for it. -/
theorem multiply_eq_digitsOf (a b : DigitSeq) : multiply a b = digitsOf (value a * value b) := by
  unfold multiply
  split
  case isTrue hempty =>
    obtain ha | hb := hempty
    · rw [List.eq_nil_of_length_eq_zero ha, value, Nat.zero_mul]; rfl
    · rw [List.eq_nil_of_length_eq_zero hb, value, Nat.mul_zero]; rfl
  case isFalse => rfl

theorem length_multiply (a b : DigitSeq) : (multiply a b).length = digitlen (value a * value b) := by
  rw [multiply_eq_digitsOf, digitlen]

/-! ### The obligation -/

/-- Settles O39: `multiply` is the canonical sequence of the product of the values, so each law is one of products of
numbers. -/
theorem multiplyLaws : Obligations.MultiplyLaws := by
  intro a b
  refine ⟨?value, ?comm, fun ha hb => ?length, fun hzero => ?zero⟩
  case value => rw [multiply_eq_digitsOf, value_digitsOf]
  case comm => rw [multiply_eq_digitsOf, multiply_eq_digitsOf, Nat.mul_comm]
  case length =>
    rw [length_multiply]
    exact ⟨digitlen_add_sub_one_le ha hb, digitlen_mul_le ha hb⟩
  case zero =>
    rw [multiply_eq_digitsOf, Nat.mul_eq_zero.mpr hzero]
    rfl

end Sys2Proof.Machine

/-! The errors of a command (spec/60_exceptions.md R160 to R165, R169): an illegal word, an illegal scale, an unreadable
source, a divisor of 0. -/

namespace Sys2Proof.Machine

/-! ### Completion with an error (R160) -/

/-- A command whose computation ends in an error completes with that error. -/
theorem exec_completedError {i : Instr} {s : State} {e : ErrCode} (h : commandResult i s.sources = .error e) :
    ∃ t, exec i s = .next t ∧ CompletedError s t e := by
  refine ⟨_, exec_eq_complete i s, ?_⟩
  rw [h, State.complete_error]
  exact completedError_completeError s e

/-- With no wait left the step is the completion event of the command in flight (R190). -/
theorem step_eq_engineComplete {s : State} {f : InFlight} (hflight : s.inFlight = some f) (hwait : f.wait = 0) :
    step s = engineComplete f s := by
  simp only [step, hflight, hwait]

/-- An illegal word completes with E_ILLEGAL, and no source is read (R161). -/
theorem engineComplete_of_decode_error {f : InFlight} {e : Illegal} (s : State) (h : decode f.word = .error e) :
    engineComplete f s = .next (s.completeError .illegal) := by
  simp only [engineComplete, h]

/-! ### Unreadable sources (R163, R164) -/

/-- The command reads D[k], and reads it before any other check (R169). -/
def ReadsFirst (k : DIdx) (i : Instr) : Prop :=
  (∃ m, i = .fromdig m k) ∨ (∃ d b, i = .dmul d k b) ∨ (∃ d b, i = .ddiv d k b) ∨ (∃ d x y, i = .dalign d k x y) ∨
    i = .ovchk k

/-- What fails the first read of a command is what the command fails with. -/
theorem commandResult_of_readsFirst {i : Instr} {k : DIdx} {src : Sources} {e : ErrCode} (hi : ReadsFirst k i)
    (hread : src.d[k].read = .error e) : commandResult i src = .error e := by
  obtain ⟨m, rfl⟩ | ⟨d, b, rfl⟩ | ⟨d, b, rfl⟩ | ⟨d, x, y, rfl⟩ | rfl := hi
  · rw [commandResult, fromdigResult, hread]; rfl
  · rw [commandResult, dmulResult, hread]; rfl
  · rw [commandResult, ddivResult, hread]; rfl
  · rw [commandResult, dalignResult, hread]; rfl
  · rw [commandResult, ovchkResult, hread]; rfl

/-- DMUL reads B after a readable A, and fails with what fails that read. -/
theorem commandResult_dmul_of_read_error_b {d a b : DIdx} {src : Sources} {q : DigitSeq} {e : ErrCode}
    (ha : src.d[a].Source q) (hb : src.d[b].read = .error e) : commandResult (.dmul d a b) src = .error e := by
  rw [commandResult, dmulResult, DigitReg.read_of_source ha, hb]; rfl

/-- Every command that reads an unreadable D[k] completes with the error of that read: as the command's first source
whatever its other operands, as operand B of DMUL after a readable A. -/
theorem exec_completedError_of_read_error {s : State} {k : DIdx} {e : ErrCode}
    (hread : s.sources.d[k].read = .error e) :
    (∀ i : Instr, ReadsFirst k i → ∃ t, exec i s = .next t ∧ CompletedError s t e) ∧
    ∀ (d a : DIdx) (q : DigitSeq), s.sources.d[a].Source q →
      ∃ t, exec (.dmul d a k) s = .next t ∧ CompletedError s t e :=
  ⟨fun _ hi => exec_completedError (commandResult_of_readsFirst hi hread),
    fun _ _ _ ha => exec_completedError (commandResult_dmul_of_read_error_b ha hread)⟩

/-! ### The scale check (R162) -/

theorem scaleA_eq (scale : Word) : scaleA scale = scale.toNat % 256 := by
  rw [scaleA, BitVec.extractLsb'_toNat, Nat.shiftRight_zero]

theorem scaleB_eq (scale : Word) : scaleB scale = scale.toNat / 256 % 256 := by
  rw [scaleB, BitVec.extractLsb'_toNat, Nat.shiftRight_eq_div_pow]

/-- The scale check fails where a scale is above 76: it answers no scale there, and E_SCALE is its only error (R131). -/
theorem Operands.resultScale_of_illegal {o : Operands} {x : Option Nat}
    (h : 76 < o.sA ∨ 76 < o.sB ∨ 76 < x.getD (max o.sA o.sB)) : o.resultScale x = .error .scale := by
  cases hres : o.resultScale x with
  | error e => rw [Operands.resultScale_eq_error hres]
  | ok rs =>
    obtain ⟨hA, hB, hle, rfl⟩ := Operands.resultScale_eq_ok.mp hres
    omega

theorem muldecResult_of_scale_error {src : Sources} {rd ra rb : MIdx} {x : Option Nat} {e : ErrCode}
    (h : (src.operands ra rb).resultScale x = .error e) : muldecResult src rd ra rb x = .error e := by
  simp only [muldecResult, h]; rfl

theorem divdecResult_of_scale_error {src : Sources} {rd ra rb : MIdx} {x : Option Nat} {e : ErrCode}
    (h : (src.operands ra rb).resultScale x = .error e) : divdecResult src rd ra rb x = .error e := by
  simp only [divdecResult, h]; rfl

/-! ### A divisor of 0 (R165) -/

/-- DDIV checks the divisor once its source is read (R112). -/
theorem ddivResult_of_zero {src : Sources} {rd ra : DIdx} {rb : MIdx} {q : DigitSeq} (ha : src.d[ra].Source q)
    (hzero : src.m[rb] = 0#256) : ddivResult src rd ra rb = .error .divzero := by
  rw [ddivResult, DigitReg.read_of_source ha, hzero]; rfl

/-- DIVDEC checks the divisor once the scales are, whatever the dividend is (R145). -/
theorem divdecResult_of_zero {src : Sources} {rd ra rb : MIdx} {x : Option Nat} {rs : Nat}
    (hscale : (src.operands ra rb).resultScale x = .ok rs) (hzero : src.m[rb] = 0#256) :
    divdecResult src rd ra rb x = .error .divzero := by
  have hb : (src.operands ra rb).b = 0 := by
    change (src.m[rb]).toInt = 0
    rw [hzero, BitVec.toInt_zero]
  simp only [divdecResult, hscale]
  exact if_pos hb

/-! ### The obligations -/

/-- Settles O10: the step is the completion event, which for a word that does not decode reads no source. -/
theorem illegalWordCompletes : Obligations.IllegalWordCompletes := by
  intro s f e hflight hwait hdecode
  refine ⟨_, ?step, completedError_completeError s .illegal⟩
  case step => rw [step_eq_engineComplete hflight hwait, engineComplete_of_decode_error s hdecode]

/-- Settles O24: LEN above 256 fails the read with E_LEN. -/
theorem lenAboveCapacityRaises : Obligations.LenAboveCapacityRaises :=
  fun _ _ hlen => exec_completedError_of_read_error (DigitReg.read_of_len hlen)

/-- Settles O25: a cell above 9 within LEN fails the read with E_DIGIT. -/
theorem badDigitRaises : Obligations.BadDigitRaises :=
  fun _ _ hbad => exec_completedError_of_read_error (DigitReg.read_of_badDigit hbad)

/-- Settles O27: the source read of DDIV and the scale check of DIVDEC pass, and the divisor is checked next. -/
theorem zeroDivisorRaises : Obligations.ZeroDivisorRaises := by
  refine ⟨fun s rd ra rb q ha hzero => exec_completedError (ddivResult_of_zero ha hzero), ?divdec⟩
  case divdec =>
    intro s rd ra rb hzero hsA hsB
    rw [← scaleA_eq] at hsA
    rw [← scaleB_eq] at hsB
    refine ⟨fun rs hrs => exec_completedError ?explicit, exec_completedError ?default⟩
    case explicit =>
      exact divdecResult_of_zero (Operands.resultScale_eq_ok.mpr ⟨hsA, hsB, hrs, rfl⟩) hzero
    case default =>
      exact divdecResult_of_zero (Operands.resultScale_eq_ok.mpr ⟨hsA, hsB, max_le hsA hsB, rfl⟩) hzero

/-- Settles O28: the scale check comes before any arithmetic in both transforms. -/
theorem illegalScaleRaises : Obligations.IllegalScaleRaises := by
  intro s rd ra rb rs
  rw [← scaleA_eq, ← scaleB_eq]
  refine ⟨fun hillegal => ?default, fun hillegal => ?explicit⟩
  case default =>
    have hscale : (s.sources.operands ra rb).resultScale none = .error .scale :=
      Operands.resultScale_of_illegal (hillegal.imp_right .inl)
    exact ⟨exec_completedError (muldecResult_of_scale_error hscale),
      exec_completedError (divdecResult_of_scale_error hscale)⟩
  case explicit =>
    have hscale : (s.sources.operands ra rb).resultScale (some rs) = .error .scale :=
      Operands.resultScale_of_illegal hillegal
    exact ⟨exec_completedError (muldecResult_of_scale_error hscale),
      exec_completedError (divdecResult_of_scale_error hscale)⟩

end Sys2Proof.Machine

/-! Reset (spec/70_reset_and_hazards.md R181): the state after it is idle, and an idle core accepts a command. -/

namespace Sys2Proof.Machine

/-! ### The control side after reset -/

/-- Both ways of reset give the control side the values of R39 (R180). -/
theorem control_after_reset {s : State} (h : s = State.reset ∨ ∃ u : State, s = u.assertRst) :
    s.inFlight = none ∧ s.ctrl = 0#32 ∧ s.status = 0#32 := by
  obtain rfl | ⟨u, rfl⟩ := h
  case inl => exact ⟨rfl, rfl, rfl⟩
  case inr => exact ⟨u.assertRst_inFlight, u.assertRst_ctrl, u.assertRst_status⟩

/-- With CTRL.IE = 0 the interrupt output is 0 (R170). -/
theorem State.irq_of_masked {s : State} (h : ieBit s.ctrl = false) : s.irq = false := by
  rw [State.irq, h, Bool.false_and]

/-! ### Acceptance -/

/-- With BUSY = 0 a write to CMD is accepted (R28). -/
theorem State.busWrite_cmd_of_idle {s : State} (w : Word) (h : busyBit s.status = false) :
    s.busWrite .cmd w = s.acceptDrawn w := s.busWrite_of_idle .cmd w h

/-- An accepted word is stored in CMD, sets BUSY and is in flight (R28, R34). -/
theorem State.acceptDrawn_accepted (s : State) (w : Word) :
    (s.acceptDrawn w).cmd = w ∧ busyBit (s.acceptDrawn w).status = true ∧ (s.acceptDrawn w).inFlight.isSome = true :=
  ⟨s.acceptDrawn_cmd w, busyBit_statusAccept s.status, rfl⟩

/-! ### The obligation -/

/-- Settles O58: both ways of reset leave CTRL and STATUS 0, so BUSY and IE are 0, and with BUSY = 0 a CMD write is an
acceptance. -/
theorem idleAfterReset : Obligations.IdleAfterReset := by
  intro s hreset
  obtain ⟨hflight, hctrl, hstatus⟩ := control_after_reset hreset
  have hidle : busyBit s.status = false := by rw [hstatus]; rfl
  have hmasked : ieBit s.ctrl = false := by rw [hctrl]; rfl
  refine ⟨hidle, hflight, hmasked, State.irq_of_masked hmasked, fun w => ?accepted⟩
  case accepted =>
    rw [State.busWrite_cmd_of_idle w hidle]
    exact s.acceptDrawn_accepted w

end Sys2Proof.Machine

/-! The encoder (spec/30_encoding.md R62, R67, R70): a command and the one word that decodes to it, and the words that decode
to none. -/

namespace Sys2Proof

/-! ### The operand fields of a command and of a word -/

/-- The operand fields of C32 (R62): every field but OPC, DS and RSV. -/
structure OperandFields where
  rd : Fin 4
  ra : Fin 4
  rb : Fin 4
  imm : Nat
  immb : Nat

/-- The operand fields of a word. -/
def wordOperands (w : Word) : OperandFields := ⟨fieldRd w, fieldRa w, fieldRb w, fieldImm w, fieldImmb w⟩

/-- The operand fields a command asks for, 0 in each that its form does not use (R66, R70). -/
def Instr.operands : Instr → OperandFields
  | .todig rd ra => ⟨rd, ra, 0, 0, 0⟩
  | .fromdig rd ra => ⟨rd, ra, 0, 0, 0⟩
  | .dmul rd ra rb => ⟨rd, ra, rb, 0, 0⟩
  | .ddiv rd ra rb => ⟨rd, ra, rb, 0, 0⟩
  | .dalign rd ra src tgt => ⟨rd, ra, 0, tgt, src⟩
  | .ovchk ra => ⟨0, ra, 0, 0, 0⟩
  | .muldec rd ra rb rs => ⟨rd, ra, rb, rs, 0⟩
  | .muldecDefault rd ra rb => ⟨rd, ra, rb, 0, 0⟩
  | .divdec rd ra rb rs => ⟨rd, ra, rb, rs, 0⟩
  | .divdecDefault rd ra rb => ⟨rd, ra, rb, 0, 0⟩

/-- A command is well-formed when both of its immediates fit their fields (R64). -/
theorem Instr.wf_iff (i : Instr) : i.wf = true ↔ i.operands.imm < 2 ^ 8 ∧ i.operands.immb < 2 ^ 8 := by
  cases i <;> simp [Instr.wf, Instr.operands] <;> omega

/-- The encoder puts the command's opcode, form and operands into the fields of the word (R70). -/
theorem encode_eq_wordOf (i : Instr) :
    encode i = wordOf i.form.opc i.operands.rd i.operands.ra i.operands.rb i.form.ds i.operands.imm i.operands.immb := by
  cases i <;> rfl

/-! ### Decoding, field by field -/

/-- A word decodes to a command exactly when it meets what the command's form requires and its operands are the
command's. -/
theorem decode_eq_ok_iff_form {w : Word} {i : Instr} :
    decode w = .ok i ↔ i.form.Holds w ∧ i.withOperandsOf w = i := by
  constructor
  · intro h
    have hform := form_holds_of_decode h
    rw [decode_of_form_holds hform, Except.ok.injEq] at h
    exact ⟨hform, h⟩
  · rintro ⟨hform, hoperands⟩
    rw [decode_of_form_holds hform, hoperands]

/-- The unused fields are 0 and the used ones are the command's operands: together, every operand field is the
command's. -/
theorem unused_zero_and_operands_iff (w : Word) (i : Instr) :
    ((i.form.rdZero = true → fieldRd w = 0) ∧ (i.form.rbZero = true → fieldRb w = 0) ∧
      (i.form.immZero = true → fieldImm w = 0) ∧ (i.form.immbZero = true → fieldImmb w = 0)) ∧ i.withOperandsOf w = i ↔
    wordOperands w = i.operands := by
  cases i <;> simp [Instr.form, Instr.withOperandsOf, Instr.operands, wordOperands] <;> grind

/-- A word decodes to a command exactly when OPC and DS are the command's, RSV is 0 and every operand field, used or not,
is the command's (R62, R66). -/
theorem decode_eq_ok_iff_fields {w : Word} {i : Instr} :
    decode w = .ok i ↔
      fieldOpc w = i.form.opc ∧ fieldDs w = i.form.ds ∧ fieldRsv w = 0 ∧ wordOperands w = i.operands := by
  rw [decode_eq_ok_iff_form, ← unused_zero_and_operands_iff]
  constructor
  · rintro ⟨⟨hopc, hds, hrsv, hrd, hrb, himm, himmb⟩, hoperands⟩
    exact ⟨hopc, hds, hrsv, ⟨hrd, hrb, himm, himmb⟩, hoperands⟩
  · rintro ⟨hopc, hds, hrsv, ⟨hrd, hrb, himm, himmb⟩, hoperands⟩
    exact ⟨⟨hopc, hds, hrsv, hrd, hrb, himm, himmb⟩, hoperands⟩

/-! ### The table of forms (R66) -/

/-- Which opcodes there are, which of them has two forms, and which fields a form does not use. -/
theorem Instr.form_columns (i : Instr) :
    (1 ≤ i.form.opc ∧ i.form.opc ≤ 8) ∧ (i.form.ds ≠ 0 → i.form.opc = 7 ∨ i.form.opc = 8) ∧
    (i.form.rdZero = true ↔ i.form.opc = 6) ∧
    (i.form.rbZero = true ↔ i.form.opc = 1 ∨ i.form.opc = 2 ∨ i.form.opc = 5 ∨ i.form.opc = 6) ∧
    (i.form.immZero = true ↔
      (i.form.opc = 1 ∨ i.form.opc = 2 ∨ i.form.opc = 3 ∨ i.form.opc = 4 ∨ i.form.opc = 6) ∨ i.form.ds ≠ 0) ∧
    (i.form.immbZero = true ↔ i.form.opc ≠ 5) := by
  cases i <;> simp [Instr.form]

/-- Every opcode from 1 to 8 is some command's, and those of the composite commands have both values of DS. -/
theorem exists_form {opc ds : Nat} (hopc : 1 ≤ opc ∧ opc ≤ 8) (hds : ds < 2) (hform : ds ≠ 0 → opc = 7 ∨ opc = 8) :
    ∃ i : Instr, i.form.opc = opc ∧ i.form.ds = ds := by
  obtain rfl | rfl : ds = 0 ∨ ds = 1 := by omega
  · obtain ⟨hlo, hhi⟩ := hopc
    interval_cases opc
    exacts [⟨.todig 0 0, rfl, rfl⟩, ⟨.fromdig 0 0, rfl, rfl⟩, ⟨.dmul 0 0 0, rfl, rfl⟩, ⟨.ddiv 0 0 0, rfl, rfl⟩,
      ⟨.dalign 0 0 0 0, rfl, rfl⟩, ⟨.ovchk 0, rfl, rfl⟩, ⟨.muldec 0 0 0 0, rfl, rfl⟩, ⟨.divdec 0 0 0 0, rfl, rfl⟩]
  · obtain rfl | rfl := hform one_ne_zero
    exacts [⟨.muldecDefault 0 0 0, rfl, rfl⟩, ⟨.divdecDefault 0 0 0, rfl, rfl⟩]

/-- A word is illegal exactly when it meets no form (R66, R67). -/
theorem decode_error_iff {w : Word} : (∃ e, decode w = .error e) ↔ ¬∃ i : Instr, i.form.Holds w := by
  constructor
  · rintro ⟨e, herror⟩ ⟨i, hform⟩
    rw [decode_of_form_holds hform] at herror
    cases herror
  · intro hnone
    cases hdecode : decode w with
    | ok i => exact absurd ⟨i, form_holds_of_decode hdecode⟩ hnone
    | error e => exact ⟨e, rfl⟩

/-! ### The obligations -/

/-- Settles O4: the encoder's word has the command's own opcode, form and operands in its fields, and those decide what a
word decodes to. -/
theorem decodeOfEncode : Obligations.DecodeOfEncode := by
  intro i hwf
  obtain ⟨himm, himmb⟩ := i.wf_iff.mp hwf
  obtain ⟨hopc, hrd, hra, hrb, hds, hrsv, himm, himmb⟩ := fields_wordOf i.form_opc_lt i.operands.rd.isLt
    i.operands.ra.isLt i.operands.rb.isLt i.form_ds_lt himm himmb
  rw [decode_eq_ok_iff_fields, encode_eq_wordOf]
  refine ⟨hopc, hds, hrsv, ?operands⟩
  case operands => rw [wordOperands, Fin.ext hrd, Fin.ext hra, Fin.ext hrb, himm, himmb]

/-- Settles O5: the fields of a word that decodes are those of its command, so its immediates fit, and the encoder builds a
word with the same eight fields. -/
theorem encodeOfDecode : Obligations.EncodeOfDecode := by
  intro w i hdecode
  obtain ⟨hopc, hds, hrsv, hoperands⟩ := decode_eq_ok_iff_fields.mp hdecode
  have hwf : i.wf = true := by
    rw [i.wf_iff, ← hoperands]
    exact ⟨fieldImm_lt w, fieldImmb_lt w⟩
  obtain ⟨hopc', hds', hrsv', hoperands'⟩ := decode_eq_ok_iff_fields.mp (decodeOfEncode i hwf)
  refine ⟨hwf, (word_eq_iff_fields _ _).mpr ?fields⟩
  case fields =>
    have hsame := hoperands'.trans hoperands.symm
    simp only [wordOperands, OperandFields.mk.injEq] at hsame
    obtain ⟨hrd, hra, hrb, himm, himmb⟩ := hsame
    exact ⟨hopc'.trans hopc.symm, congrArg _ hrd, congrArg _ hra, congrArg _ hrb, hds'.trans hds.symm,
      hrsv'.trans hrsv.symm, himm, himmb⟩

/-- Settles O7: each condition of R67 contradicts a column of every form; where none holds, the form with the word's OPC and
DS admits the word. -/
theorem illegalWordConditions : Obligations.IllegalWordConditions := by
  intro w
  rw [decode_error_iff]
  constructor
  · intro hnone
    by_contra hlegal
    push Not at hlegal
    obtain ⟨⟨hopc0, hopc9⟩, hrsv, hrb, hrd, himmb, himm, hds, hdsimm⟩ := hlegal
    obtain ⟨i, hiopc, hids⟩ := exists_form (opc := fieldOpc w) (ds := fieldDs w) (by omega) (fieldDs_lt w) (by omega)
    obtain ⟨-, -, crd, crb, cimm, cimmb⟩ := i.form_columns
    rw [hiopc] at crd crb cimm cimmb
    rw [hids] at cimm
    refine hnone ⟨i, hiopc.symm, hids.symm, hrsv, fun h => hrd (crd.mp h), fun h => hrb (crb.mp h), fun h => ?imm,
      fun h => himmb (cimmb.mp h)⟩
    case imm => exact (cimm.mp h).elim himm hdsimm
  · rintro hillegal ⟨i, hopc, hds, hrsv, hrd, hrb, himm, himmb⟩
    obtain ⟨copc, cds, crd, crb, cimm, cimmb⟩ := i.form_columns
    rw [← hopc] at copc cds crd crb cimm cimmb
    rw [← hds] at cds cimm
    obtain h | h | ⟨h, hne⟩ | ⟨h, hne⟩ | ⟨h, hne⟩ | ⟨h, hne⟩ | ⟨h7, h8, hne⟩ | ⟨h, hne⟩ := hillegal
    · omega
    · exact h hrsv
    · exact hne (hrb (crb.mpr h))
    · exact hne (hrd (crd.mpr h))
    · exact hne (himmb (cimmb.mpr h))
    · exact hne (himm (cimm.mpr (.inl h)))
    · exact (cds hne).elim h7 h8
    · exact hne (himm (cimm.mpr (.inr h)))

end Sys2Proof

/-! The turns of the machine (spec/20_memory.md R40 to R50, spec/30_encoding.md R72): a step as a completion or as the host's
next operation, and what each host operation answers. -/

namespace Sys2Proof.Machine

/-! ### Reads and writes -/

/-- A host read changes at most the count of draws (R47). -/
theorem State.busRead_state (s : State) (r : Reg) : (s.busRead r).2 = { s with draws := (s.busRead r).2.draws } := by
  obtain ⟨hread, -⟩ | ⟨hread, -⟩ := s.busRead_cases r <;> rw [hread]

/-- A data register in the BUSY window reads as the next free value (R48). -/
theorem State.busRead_of_busy_data {s : State} {r : Reg} (hbusy : busyBit s.status = true) (hdata : r.isData = true) :
    s.busRead r = (Config.freeWord s.draws, { s with draws := s.draws + 1 }) := by
  obtain ⟨-, hidle | hfree⟩ | ⟨hread, -⟩ := s.busRead_cases r
  · rw [hbusy] at hidle; cases hidle
  · rw [hdata] at hfree; cases hfree
  · exact hread

/-- What a host read leaves: the value is recorded, and only the count of draws can differ besides (R47). -/
theorem State.hostRead_eq (s : State) (r : Reg) :
    s.hostRead r =
      { s with draws := (s.busRead r).2.draws, responses := (s.busRead r).1 :: s.responses } := by
  obtain ⟨hread, -⟩ | ⟨hread, -⟩ := s.busRead_cases r <;> rw [State.hostRead, hread] <;> rfl

/-! ### The host's turn (R50) -/

/-- Where the host has its turn, the step is its next operation. -/
theorem step_of_hostTurn {s u : State} {op : HostOp} {rest : List HostOp} (hturn : HostTurn s rest u)
    (hhost : s.host = op :: rest) : step s = hostEvent op u := by
  obtain ⟨hidle, rfl⟩ | ⟨f, n, hflight, hwait, rfl⟩ := hturn
  · simp only [step, hidle, hostCycle, hhost]
  · simp only [step, hflight, hwait, hostCycle, State.tick_host, hhost]
    rfl

/-- The turn of the host touches nothing but its list and the wait. -/
theorem HostTurn.eq {s u : State} {rest : List HostOp} (h : HostTurn s rest u) :
    u = { s with host := rest, inFlight := u.inFlight } := by
  obtain ⟨hidle, rfl⟩ | ⟨f, n, -, -, rfl⟩ := h
  · simp only [hidle]
  · rfl

theorem HostTurn.host {s u : State} {rest : List HostOp} (h : HostTurn s rest u) : u.host = rest := by rw [h.eq]
theorem HostTurn.status {s u : State} {rest : List HostOp} (h : HostTurn s rest u) : u.status = s.status := by rw [h.eq]
theorem HostTurn.d {s u : State} {rest : List HostOp} (h : HostTurn s rest u) : u.d = s.d := by rw [h.eq]
theorem HostTurn.draws {s u : State} {rest : List HostOp} (h : HostTurn s rest u) : u.draws = s.draws := by rw [h.eq]
theorem HostTurn.responses {s u : State} {rest : List HostOp} (h : HostTurn s rest u) :
    u.responses = s.responses := by rw [h.eq]
theorem HostTurn.readReg {s u : State} {rest : List HostOp} (h : HostTurn s rest u) (r : Reg) :
    u.readReg r = s.readReg r := by rw [h.eq]; cases r <;> rfl

/-! ### What an access answers (R40, R41) -/

/-- The host operation is an access of the given width at the given offset. -/
def HostOp.Accesses (op : HostOp) (width off : Nat) : Prop := op = .read width off ∨ ∃ v, op = .write width off v

theorem hostEvent_of_unsupported {op : HostOp} {width off : Nat} (s : State) (hop : op.Accesses width off)
    (h : width ≠ 32 ∨ off % 4 ≠ 0) : hostEvent op s = .refused .unsupportedAccess := by
  obtain rfl | ⟨v, rfl⟩ := hop <;> exact if_pos h

theorem hostEvent_of_outside {op : HostOp} {off : Nat} (s : State) (hop : op.Accesses 32 off) (haligned : off % 4 = 0)
    (h : 4096 ≤ off) : hostEvent op s = .fault .outsideRegisterSpace := by
  have hsupported : ¬(32 ≠ 32 ∨ off % 4 ≠ 0) := by omega
  obtain rfl | ⟨v, rfl⟩ := hop <;> exact (if_neg hsupported).trans (if_pos h)

theorem accessReg_of_supported {off : Nat} (k : Reg → Host.Outcome State Fault Refusal) (haligned : off % 4 = 0)
    (h : off < 4096) : accessReg 32 off k = k (regAt off) :=
  (if_neg (by omega)).trans (if_neg (Nat.not_le.mpr h))

theorem hostEvent_read {off : Nat} (s : State) (haligned : off % 4 = 0) (h : off < 4096) :
    hostEvent (.read 32 off) s = .next (s.hostRead (regAt off)) := by
  rw [hostEvent, accessReg_of_supported _ haligned h]

theorem hostEvent_write {off : Nat} (s : State) (v : Word) (haligned : off % 4 = 0) (h : off < 4096) :
    hostEvent (.write 32 off v) s = .next (s.busWrite (regAt off) v) := by
  rw [hostEvent, accessReg_of_supported _ haligned h]

/-! ### The obligations -/

/-- Settles O9: with no wait left the step is the completion event, which runs the decoded command. -/
theorem stepRunsDecodedCommand : Obligations.StepRunsDecodedCommand := by
  intro s f i hflight hwait hdecode
  rw [step_eq_engineComplete hflight hwait]
  simp only [engineComplete, hdecode]

/-- Settles O11: an idle state and a BUSY window with wait left are the two turns of the host. -/
theorem stepPerformsHostOperation : Obligations.StepPerformsHostOperation := by
  intro s op rest hhost
  refine ⟨fun hidle => ?idle, fun f n hflight hwait => ?busy⟩
  case idle => exact step_of_hostTurn (.inl ⟨hidle, rfl⟩) hhost
  case busy => exact step_of_hostTurn (.inr ⟨f, n, hflight, hwait, rfl⟩) hhost

/-- Settles O50: a read is the register's value in the same state, or a free value that counts one draw. -/
theorem readsHaveNoSideEffect : Obligations.ReadsHaveNoSideEffect := by
  intro s r
  refine ⟨s.busRead_state r, ?value⟩
  case value =>
    rintro (hidle | hfree)
    · exact s.busRead_of_idle r hidle
    · exact s.busRead_of_not_data hfree

/-- Settles O51: the registers of the first list are data registers, the others are not. -/
theorem busyReadsOfDataAreFree : Obligations.BusyReadsOfDataAreFree := by
  intro s hbusy
  refine ⟨?data, s.busRead_id, s.busRead_ctrl, s.busRead_of_not_data rfl, s.busRead_of_not_data rfl,
    s.busRead_of_not_data rfl, s.busRead_cfg, s.busRead_of_not_data rfl⟩
  case data => rintro k w x r (rfl | rfl | rfl | rfl) <;> exact State.busRead_of_busy_data hbusy rfl

/-- Settles O53: the host's operation is an access that the interface refuses. -/
theorem unsupportedAccessRefused : Obligations.UnsupportedAccessRefused := by
  intro s u rest width off v hturn hbad
  exact ⟨fun hhost => (step_of_hostTurn hturn hhost).trans (hostEvent_of_unsupported u (.inl rfl) hbad),
    fun hhost => (step_of_hostTurn hturn hhost).trans (hostEvent_of_unsupported u (.inr ⟨v, rfl⟩) hbad)⟩

/-- Settles O54: the host's operation is an access of the register at the offset, whose value and whose guard the turn
leaves as they are. -/
theorem hostAccessReachesRegister : Obligations.HostAccessReachesRegister := by
  intro s u rest off v hturn haligned
  refine ⟨fun hout => ?outside, fun hin hhost => ?read, fun hin hhost => ?write⟩
  case outside =>
    rintro (hhost | hhost)
    · exact (step_of_hostTurn hturn hhost).trans (hostEvent_of_outside u (.inl rfl) haligned hout)
    · exact (step_of_hostTurn hturn hhost).trans (hostEvent_of_outside u (.inr ⟨v, rfl⟩) haligned hout)
  case read =>
    have hstep : step s = .next (u.hostRead (regAt off)) :=
      (step_of_hostTurn hturn hhost).trans (hostEvent_read u haligned hin)
    rw [hstep]
    refine ⟨?_, fun hidle => ?_⟩
    · rw [← hturn.responses, State.hostRead_eq, u.busRead_state (regAt off)]
    · rw [← hturn.status] at hidle
      rw [State.hostRead_eq, u.busRead_of_idle _ hidle, hturn.readReg, hturn.responses]
  case write =>
    have hstep : step s = .next (u.busWrite (regAt off) v) :=
      (step_of_hostTurn hturn hhost).trans (hostEvent_write u v haligned hin)
    refine ⟨hstep, fun hidle => ?_, fun hbusy hguarded => ?_⟩
    · rw [← hturn.status] at hidle
      rw [hstep, u.busWrite_of_idle _ v hidle]
    · rw [← hturn.status] at hbusy ⊢
      rw [hstep, State.busWrite_of_busy_guarded v hbusy hguarded]
      rfl

/-- Settles O59: the host's operation is WAIT, and the turn leaves BUSY as it is. -/
theorem waitEndsWhenNotBusy : Obligations.WaitEndsWhenNotBusy := by
  intro s u rest hturn hhost
  rw [step_of_hostTurn hturn hhost, ← hturn.status, ← hturn.responses, ← hturn.host]
  refine ⟨fun hbusy => if_pos hbusy, fun hidle => ?ends⟩
  case ends =>
    rw [hostEvent, if_neg (Bool.not_eq_true _ ▸ hidle), State.hostRead_eq, u.busRead_of_idle _ hidle]
    rfl

/-- Settles O60: LENk reads as the register's value or as a free value by BUSY, and GETD queues the window reads that the
value's LEN field covers. -/
theorem getdReadsLenThenWindows : Obligations.GetdReadsLenThenWindows := by
  intro s u rest k hturn hhost
  rw [step_of_hostTurn hturn hhost, ← hturn.status, ← hturn.responses, ← hturn.host, ← hturn.draws, ← hturn.d, hostEvent,
    State.hostRead_eq, opsWindows_eq_windowReads]
  refine ⟨fun hidle => ?idle, fun hbusy => ?busy⟩
  case idle =>
    have hlen : ((u.d[k].len.setWidth 32).toNat % 512) = u.d[k].len.toNat := by
      have := u.d[k].len.isLt
      simp only [BitVec.toNat_setWidth]
      omega
    rw [u.busRead_of_idle _ hidle, State.readReg, hlen]
  case busy => rw [State.busRead_of_busy_data hbusy rfl]

end Sys2Proof.Machine

/-! The registers of the map (spec/20_memory.md R42, R44, R46; spec/10_state.md R24, R25, R30): where each of them is, what a
host write stores in it, and the bits that read as zero. -/

namespace Sys2Proof.Machine

/-! ### The address map (R44, R46) -/

theorem regAt_offset (r : Reg) : regAt r.offset = r := by
  cases r with
  | len k => revert k; decide
  | mag k w => revert k w; decide
  | window k w => revert k w; decide
  | _ => rfl

/-- What is found at an aligned offset has that offset, unless it is reserved. -/
theorem offset_regAt {off : Nat} (haligned : off % 4 = 0) (h : regAt off ≠ .reserved) : (regAt off).offset = off := by
  fun_cases regAt off
  case case11 => exact absurd (by simp only [regAt, *, if_false]) h
  all_goals
    simp only [Reg.offset, Fin.val_ofNat]
    omega

/-- The offsets outside the map (R46). -/
theorem regAt_eq_reserved {off : Nat} (h : off = 0x01C ∨ (0x030 ≤ off ∧ off ≤ 0x0FF) ∨ (0x180 ≤ off ∧ off ≤ 0x3FF) ∨
    (0x600 ≤ off ∧ off ≤ 0xFFF)) : regAt off = .reserved := by
  fun_cases regAt off
  case case11 => rfl
  all_goals omega

/-! ### What a write stores -/

/-- Keeping the low n bits of a word is reducing it modulo 2^n. -/
theorem keepLow_eq_ofNat {n : Nat} (v : Word) (hn : n < 32) : keepLow n v = BitVec.ofNat 32 (v.toNat % 2 ^ n) := by
  apply BitVec.eq_of_getLsbD_eq
  intro j hj
  rw [getLsbD_keepLow n j v hn, BitVec.getLsbD_ofNat, Nat.testBit_mod_two_pow, decide_eq_true hj, Bool.true_and,
    BitVec.getLsbD]

/-- RSCALE holds a legal result scale as it is (R25, R132). -/
theorem toNat_keepLow_eight {rs : Nat} (h : rs ≤ 76) : (keepLow 8 (BitVec.ofNat 32 rs)).toNat = rs := by
  rw [keepLow_eq_ofNat _ (by decide), BitVec.toNat_ofNat, BitVec.toNat_ofNat]
  omega

theorem setWidth_nine_eq_ofNat (v : Word) : v.setWidth 9 = BitVec.ofNat 9 (v.toNat % 512) := by
  apply BitVec.eq_of_toNat_eq
  rw [BitVec.toNat_setWidth, BitVec.toNat_ofNat, Nat.mod_mod]

/-- The written magnitude register has the word replaced (R42). -/
theorem State.writeReg_mag_m_self (s : State) (k : MIdx) (w : Fin 8) (v : Word) :
    (s.writeReg (.mag k w) v).m[k] = setMagWord s.m[k] w v :=
  Vector.getElem_set_self k.isLt

/-- A write to a magnitude word leaves the other magnitude registers (R42). -/
theorem State.writeReg_mag_m_of_ne (s : State) {k j : MIdx} (w : Fin 8) (v : Word) (h : j ≠ k) :
    (s.writeReg (.mag k w) v).m[j] = s.m[j] :=
  Vector.getElem_set_ne k.isLt j.isLt fun hkj => h (Fin.ext hkj.symm)

/-! ### Reserved bits -/

/-- A word below 2^n has no bit of a mask whose low n bits are 0. -/
theorem and_mask_eq_zero_of_lt {n : Nat} {x mask : Word} (hx : x.toNat < 2 ^ n)
    (hmask : ∀ j, j < n → mask.getLsbD j = false) : x &&& mask = 0#32 := by
  rw [and_eq_zero_iff_bits]
  intro j _ hj
  have hnj : n ≤ j := by
    by_contra hlt
    rw [hmask j (Nat.not_le.mp hlt)] at hj
    cases hj
  exact Nat.testBit_lt_two_pow (hx.trans_le (Nat.pow_le_pow_right (by decide) hnj))

/-! ### The obligations -/

/-- Settles O43: `regAt` and `Reg.offset` are inverse to each other outside the reserved offsets. -/
theorem addressMap : Obligations.AddressMap := by
  refine ⟨regAt_offset, fun off hspace haligned => ⟨fun hreserved r hr hoff => ?listed, fun hnone => ?reserved⟩⟩
  case listed => exact hr (by rw [← regAt_offset r, hoff, hreserved])
  case reserved =>
    by_contra hne
    exact hnone _ hne (offset_regAt haligned hne)

/-- Settles O45: with BUSY = 0 the write is the register's own, and the read after it returns what is stored. -/
theorem dataRegisterWrites : Obligations.DataRegisterWrites := by
  intro s v k hidle
  have hscale : s.busWrite .scale v = { s with scale := BitVec.ofNat 32 (v.toNat % 65536) } := by
    rw [s.busWrite_of_idle _ v hidle, State.writeReg, keepLow_eq_ofNat v (by decide)]
    rfl
  have hlen : s.busWrite (.len k) v =
      { s with d := s.d.set k { s.d[k] with len := BitVec.ofNat 9 (v.toNat % 512) } } := by
    rw [s.busWrite_of_idle _ v hidle, State.writeReg, setWidth_nine_eq_ofNat]
  refine ⟨hscale, ?readScale, hlen, ?readLen, s.busWrite_rscale v⟩
  case readScale =>
    have hread := State.busRead_of_idle (s := s.busWrite .scale v) .scale (by rw [hscale]; exact hidle)
    rw [hread, hscale, State.readReg, BitVec.toNat_ofNat]
    omega
  case readLen =>
    have hread := State.busRead_of_idle (s := s.busWrite (.len k) v) (.len k) (by rw [hlen]; exact hidle)
    rw [hread, hlen, State.readReg]
    simp
    omega

/-- Settles O48: with BUSY = 0 the access is the register's own read or write, and the written register differs from the
old one in the 32 bits of the word. -/
theorem magnitudeWordOrder : Obligations.MagnitudeWordOrder := by
  intro s k w v hidle
  simp only [State.busRead_of_idle _ hidle, State.busWrite_of_idle _ v hidle, State.writeReg_mag_m_self]
  exact ⟨fun b hb => getLsbD_magWord _ w b hb, rfl, fun j hj => s.writeReg_mag_m_of_ne w v hj,
    fun i hi => getLsbD_setMagWord _ w v i hi⟩

/-- Settles O49: nothing is stored at a reserved offset; the reserved bits of CTRL, STATUS and SCALE are clauses of the
invariant, RSCALE is at most 76 and LEN has nine bits. -/
theorem reservedOffsetsAndBits : Obligations.ReservedOffsetsAndBits := by
  refine ⟨fun s off v _ hoff => ?offsets, fun s k hinv => ?bits⟩
  case offsets =>
    rw [regAt_eq_reserved hoff]
    exact ⟨s.busRead_of_not_data rfl, s.busWrite_reserved v⟩
  case bits =>
    refine ⟨hinv.ctrl_reserved, hinv.status_reserved, hinv.scale_reserved, ?rscale, ?len⟩
    case rscale =>
      have hlt : s.rscale.toNat < 2 ^ 8 := hinv.rscale_le.trans_lt (by decide)
      exact and_mask_eq_zero_of_lt hlt (by decide)
    case len =>
      have hlt : (s.d[k].len.setWidth 32).toNat < 2 ^ 9 := by
        rw [BitVec.toNat_setWidth_of_le (by decide)]
        exact s.d[k].len.isLt
      exact and_mask_eq_zero_of_lt hlt (by decide)

end Sys2Proof.Machine

/-! What a command computes (spec/30_encoding.md R61, spec/60_exceptions.md R160): each result as an equation in what its
reads and checks answer, and what a completion changes. -/

namespace Sys2Proof.Machine

/-! ### The results, once the sources are read -/

theorem fromdigResult_of_read {src : Sources} {ra : DIdx} {q : DigitSeq} (rd : MIdx) (h : src.d[ra].read = .ok q) :
    fromdigResult src rd ra =
      if value q > Config.magMax then .error .range else .ok (.mag rd (zext256 (value q))) := by
  rw [fromdigResult, h]; rfl

theorem dmulResult_of_read {src : Sources} {ra rb : DIdx} {a b : DigitSeq} (rd : DIdx) (ha : src.d[ra].read = .ok a)
    (hb : src.d[rb].read = .ok b) :
    dmulResult src rd ra rb =
      if (multiply a b).length > Config.dcap then .error .cap else .ok (.digits rd (multiply a b)) := by
  rw [dmulResult, ha, hb]; rfl

theorem ddivResult_of_read {src : Sources} {ra : DIdx} {n : DigitSeq} (rd : DIdx) (rb : MIdx)
    (h : src.d[ra].read = .ok n) :
    ddivResult src rd ra rb =
      if uval256 src.m[rb] = 0 then .error .divzero
      else (divide n (uval256 src.m[rb])).map (.digits rd) := by
  rw [ddivResult, h]
  simp only [bind, Except.bind]
  split_ifs
  · rfl
  · cases divide n (uval256 src.m[rb]) <;> rfl

theorem dalignResult_of_read {src : Sources} {ra : DIdx} {q : DigitSeq} (rd : DIdx) (x y : Nat)
    (h : src.d[ra].read = .ok q) :
    dalignResult src rd ra x y =
      if (align q x y).length > Config.dcap then .error .cap else .ok (.digits rd (align q x y)) := by
  rw [dalignResult, h]; rfl

theorem ovchkResult_of_read {src : Sources} {ra : DIdx} {q : DigitSeq} (h : src.d[ra].read = .ok q) :
    ovchkResult src ra = if overflows q then .error .overflow else .ok .none := by
  rw [ovchkResult, h]; rfl

/-! ### The results of the composite commands, once the scales are checked -/

theorem muldecResult_of_scale {src : Sources} {rd ra rb : MIdx} {x : Option Nat} {rs : Nat}
    (h : (src.operands ra rb).resultScale x = .ok rs) :
    muldecResult src rd ra rb x =
      if overflows (mulScratch (src.operands ra rb) rs).p2 then .error .overflow
      else .ok (.decimal rd ((src.operands ra rb).reassemble (mulScratch (src.operands ra rb) rs).p2) rs) := by
  simp only [muldecResult, h]; rfl

theorem divdecResult_of_scale {src : Sources} {rd ra rb : MIdx} {x : Option Nat} {rs : Nat}
    (h : (src.operands ra rb).resultScale x = .ok rs) :
    divdecResult src rd ra rb x =
      if (src.operands ra rb).b = 0 then .error .divzero
      else (divide (divNumerator (src.operands ra rb) rs) (src.operands ra rb).b.natAbs).bind fun q =>
        if overflows q then .error .overflow else .ok (.decimal rd ((src.operands ra rb).reassemble q) rs) := by
  simp only [divdecResult, h]; rfl

/-! ### What a command can answer -/

/-- The effect is a write of the command's destinations, a legal scale among them (R61, R132). -/
def IsEffectOf : Instr → Effect → Prop
  | .todig rd _, e | .dmul rd _ _, e | .ddiv rd _ _, e | .dalign rd _ _ _, e => ∃ q, e = .digits rd q
  | .fromdig rd _, e => ∃ v, e = .mag rd v
  | .ovchk _, e => e = .none
  | .muldec rd _ _ _, e | .muldecDefault rd _ _, e | .divdec rd _ _ _, e | .divdecDefault rd _ _, e =>
    ∃ v rs, e = .decimal rd v rs ∧ rs ≤ 76

/-- The result is an effect of the command or one of its errors (R160). -/
def IsAnswerOf (i : Instr) : Except ErrCode Effect → Prop
  | .ok e => IsEffectOf i e
  | .error e => mayRaise i e = true

/-- An unreadable first source is an error that each command with a digit source can raise (R163, R164). -/
theorem isAnswerOf_of_read_error {i : Instr} {src : Sources} {k : DIdx} {e : ErrCode} (hi : ReadsFirst k i)
    (h : src.d[k].read = .error e) : IsAnswerOf i (commandResult i src) := by
  rw [commandResult_of_readsFirst hi h]
  obtain ⟨m, rfl⟩ | ⟨d, b, rfl⟩ | ⟨d, b, rfl⟩ | ⟨d, x, y, rfl⟩ | rfl := hi <;>
    obtain rfl | rfl := DigitReg.read_eq_error h <;> rfl

theorem isAnswerOf_muldecResult {i : Instr} {rd ra rb : MIdx} {x : Option Nat} (src : Sources)
    (heffect : ∀ v rs, rs ≤ 76 → IsEffectOf i (.decimal rd v rs)) (hscale : mayRaise i .scale = true)
    (hoverflow : mayRaise i .overflow = true) : IsAnswerOf i (muldecResult src rd ra rb x) := by
  cases hrs : (src.operands ra rb).resultScale x with
  | error e =>
    rw [muldecResult_of_scale_error hrs, Operands.resultScale_eq_error hrs]
    exact hscale
  | ok rs =>
    obtain ⟨-, -, hle, -⟩ := Operands.resultScale_eq_ok.mp hrs
    rw [muldecResult_of_scale hrs]
    split
    · exact hoverflow
    · exact heffect _ _ hle

theorem isAnswerOf_divdecResult {i : Instr} {rd ra rb : MIdx} {x : Option Nat} (src : Sources)
    (heffect : ∀ v rs, rs ≤ 76 → IsEffectOf i (.decimal rd v rs)) (hscale : mayRaise i .scale = true)
    (hzero : mayRaise i .divzero = true) (hrange : mayRaise i .range = true) (hoverflow : mayRaise i .overflow = true) :
    IsAnswerOf i (divdecResult src rd ra rb x) := by
  cases hrs : (src.operands ra rb).resultScale x with
  | error e =>
    rw [divdecResult_of_scale_error hrs, Operands.resultScale_eq_error hrs]
    exact hscale
  | ok rs =>
    obtain ⟨-, -, hle, -⟩ := Operands.resultScale_eq_ok.mp hrs
    rw [divdecResult_of_scale hrs]
    split
    · exact hzero
    · cases hq : divide (divNumerator (src.operands ra rb) rs) (src.operands ra rb).b.natAbs with
      | error e =>
        rw [divide_eq_error hq]
        exact hrange
      | ok q =>
        rw [Except.bind]
        split
        · exact hoverflow
        · exact heffect _ _ hle

/-- Every command's computation ends in an effect of the command or in one of its errors. -/
theorem isAnswerOf_commandResult (i : Instr) (src : Sources) : IsAnswerOf i (commandResult i src) := by
  cases i with
  | todig rd ra => exact ⟨_, rfl⟩
  | fromdig rd ra =>
    cases h : src.d[ra].read with
    | error e => exact isAnswerOf_of_read_error (.inl ⟨rd, rfl⟩) h
    | ok q =>
      rw [commandResult, fromdigResult_of_read rd h]
      split
      · rfl
      · exact ⟨_, rfl⟩
  | dmul rd ra rb =>
    cases ha : src.d[ra].read with
    | error e => exact isAnswerOf_of_read_error (.inr (.inl ⟨rd, rb, rfl⟩)) ha
    | ok a =>
      cases hb : src.d[rb].read with
      | error e =>
        rw [commandResult, dmulResult, ha, hb]
        obtain rfl | rfl := DigitReg.read_eq_error hb <;> rfl
      | ok b =>
        rw [commandResult, dmulResult_of_read rd ha hb]
        split
        · rfl
        · exact ⟨_, rfl⟩
  | ddiv rd ra rb =>
    cases h : src.d[ra].read with
    | error e => exact isAnswerOf_of_read_error (.inr (.inr (.inl ⟨rd, rb, rfl⟩))) h
    | ok n =>
      rw [commandResult, ddivResult_of_read rd rb h]
      split
      · rfl
      · cases hq : divide n (uval256 src.m[rb]) with
        | error e => rw [divide_eq_error hq]; rfl
        | ok q => exact ⟨q, rfl⟩
  | dalign rd ra x y =>
    cases h : src.d[ra].read with
    | error e => exact isAnswerOf_of_read_error (.inr (.inr (.inr (.inl ⟨rd, x, y, rfl⟩)))) h
    | ok q =>
      rw [commandResult, dalignResult_of_read rd x y h]
      split
      · rfl
      · exact ⟨_, rfl⟩
  | ovchk ra =>
    cases h : src.d[ra].read with
    | error e => exact isAnswerOf_of_read_error (.inr (.inr (.inr (.inr rfl)))) h
    | ok q =>
      rw [commandResult, ovchkResult_of_read h]
      split <;> rfl
  | muldec | muldecDefault => exact isAnswerOf_muldecResult src (fun v rs h => ⟨v, rs, rfl, h⟩) rfl rfl
  | divdec | divdecDefault => exact isAnswerOf_divdecResult src (fun v rs h => ⟨v, rs, rfl, h⟩) rfl rfl rfl rfl

/-! ### The registers a completion leaves (R35) -/

theorem readReg_completeOk_digits (s : State) (rd : DIdx) (q : DigitSeq) {r : Reg} (hstatus : r ≠ .status)
    (hr : writesReg.isDigitsOf rd r = false) : (s.completeOk (.digits rd q)).readReg r = s.readReg r := by
  cases r with
  | status => exact absurd rfl hstatus
  | len j =>
    have hj : rd.val ≠ j.val := fun h => of_decide_eq_false hr (Fin.ext h.symm)
    simp [State.readReg, Vector.getElem_set_ne, hj]
  | window j w =>
    have hj : rd.val ≠ j.val := fun h => of_decide_eq_false hr (Fin.ext h.symm)
    simp [State.readReg, Vector.getElem_set_ne, hj]
  | _ => rfl

theorem readReg_completeOk_mag (s : State) (rd : MIdx) (v : Mag) {r : Reg} (hstatus : r ≠ .status)
    (hr : writesReg.isMagOf rd r = false) : (s.completeOk (.mag rd v)).readReg r = s.readReg r := by
  cases r with
  | status => exact absurd rfl hstatus
  | mag j w =>
    have hj : rd.val ≠ j.val := fun h => of_decide_eq_false hr (Fin.ext h.symm)
    simp [State.readReg, Vector.getElem_set_ne, hj]
  | _ => rfl

/-- The signed result adds the write of RSCALE to that of the magnitude register (R132). -/
theorem readReg_completeOk_decimal (s : State) (rd : MIdx) (v : Mag) (rs : Nat) {r : Reg} (hrscale : r ≠ .rscale) :
    (s.completeOk (.decimal rd v rs)).readReg r = (s.completeOk (.mag rd v)).readReg r := by
  cases r with
  | rscale => exact absurd rfl hrscale
  | _ => rfl

/-- A completion without error leaves every register of the map but STATUS and the command's destinations. -/
theorem readReg_completeOk {i : Instr} {e : Effect} (s : State) (he : IsEffectOf i e) {r : Reg} (hstatus : r ≠ .status)
    (hr : writesReg i r = false) : (s.completeOk e).readReg r = s.readReg r := by
  cases i with
  | todig | dmul | ddiv | dalign =>
    obtain ⟨q, rfl⟩ := he
    exact readReg_completeOk_digits s _ q hstatus hr
  | fromdig =>
    obtain ⟨v, rfl⟩ := he
    exact readReg_completeOk_mag s _ v hstatus hr
  | ovchk =>
    cases he
    cases r with
    | status => exact absurd rfl hstatus
    | _ => rfl
  | muldec | muldecDefault | divdec | divdecDefault =>
    obtain ⟨v, rs, rfl, -⟩ := he
    obtain ⟨hmag, hrscale⟩ := Bool.or_eq_false_iff.mp hr
    rw [readReg_completeOk_decimal s _ v rs (of_decide_eq_false hrscale)]
    exact readReg_completeOk_mag s _ v hstatus hmag

/-! ### The STATUS word -/

/-- Where the reserved bits are 0, acceptance leaves BUSY, and WBUSY as it was (R33, R34). -/
theorem statusAccept_eq {st : Word} (h : st &&& 0xFFFFF0F0#32 = 0#32) :
    statusAccept st = if wbusyBit st then 0x9#32 else 0x1#32 := by
  have hbit : ∀ j, j < 32 → (if wbusyBit st then 0x9#32 else 0x1#32).getLsbD j =
      (decide (j = 0) || (decide (j = 3) && wbusyBit st)) := by
    cases wbusyBit st <;> decide
  apply BitVec.eq_of_getLsbD_eq
  intro j hj
  rw [hbit j hj, getLsbD_statusAccept]
  split_ifs with h0 hcleared
  · simp [h0]
  · have h3 : j ≠ 3 := by omega
    simp [h0, h3]
  · by_cases h3 : j = 3
    · simp [h3, wbusyBit]
    · have hreserved : (0xFFFFF0F0#32).getLsbD j = true := by
        rw [getLsbD_statusReserved, decide_eq_true]
        omega
      simp [h0, h3, and_eq_zero_iff_bits.mp h j hj hreserved]

theorem and_eight_eq (st : Word) : st &&& 0x8#32 = if wbusyBit st then 0x8#32 else 0x0#32 :=
  BitVec.and_twoPow st 3

/-- STATUS after the acceptance and the completion of a command, where its reserved bits are 0: DONE, and WBUSY as it was
(R33 to R35). -/
theorem statusDone_statusAccept {st : Word} (h : st &&& 0xFFFFF0F0#32 = 0#32) :
    statusDone (statusAccept st) = (st &&& 0x8#32) ||| 0x2#32 := by
  rw [statusAccept_eq h, and_eight_eq]
  cases wbusyBit st <;> decide

/-- STATUS after the acceptance of a command and its completion with an error, where its reserved bits are 0: DONE, ERR, the
code, and WBUSY as it was (R33 to R35). -/
theorem statusError_statusAccept {st : Word} (e : ErrCode) (h : st &&& 0xFFFFF0F0#32 = 0#32) :
    statusError e (statusAccept st) = (st &&& 0x8#32) ||| 0x6#32 ||| (e.code.setWidth 32 <<< 8) := by
  rw [statusAccept_eq h, and_eight_eq]
  cases wbusyBit st <;> cases e <;> decide

/-! ### The obligations -/

/-- Settles O16: a command's computation ends in a write of its destinations or in one of its errors, and the completion is
that write or that error. -/
theorem everyCommandCompletes : Obligations.EveryCommandCompletes := by
  intro i s
  refine ⟨_, exec_eq_complete i s, keepsControl_complete s _, ?_⟩
  have hanswer := isAnswerOf_commandResult i s.sources
  cases hresult : commandResult i s.sources with
  | ok e =>
    rw [hresult] at hanswer
    exact .inl ⟨completedOk_completeOk s e, fun r hstatus hr => readReg_completeOk s hanswer hstatus hr⟩
  | error e =>
    rw [hresult] at hanswer
    exact .inr ⟨e, hanswer, completedError_completeError s e⟩

/-- Settles O17: acceptance clears every field of STATUS but WBUSY, and the completion sets DONE, or DONE, ERR and the
code. -/
theorem statusWordAfterCompletion : Obligations.StatusWordAfterCompletion := by
  intro i s t n hinv hexec
  rw [exec_eq_complete, Host.Outcome.next.injEq] at hexec
  subst hexec
  have hanswer := isAnswerOf_commandResult i (s.accept (encode i) n).sources
  cases hresult : commandResult i (s.accept (encode i) n).sources with
  | ok e =>
    rw [State.complete_ok, State.completeOk_cmd, State.apply_cmd]
    exact ⟨rfl, .inl (statusDone_statusAccept hinv.status_reserved)⟩
  | error e =>
    rw [hresult] at hanswer
    exact ⟨rfl, .inr ⟨e, hanswer, statusError_statusAccept e hinv.status_reserved⟩⟩

/-- Settles O15: with BUSY = 0 the write is an acceptance, with BUSY = 1 it is lost; CMD is no data register, so it reads as
it stands. -/
theorem cmdWriteAcceptsCommand : Obligations.CmdWriteAcceptsCommand := by
  refine ⟨fun s w hidle => ?accepted, fun s w hbusy => ?lost, by decide, fun f s e hdecode => ?illegal⟩
  case accepted =>
    rw [State.busWrite_cmd_of_idle w hidle]
    exact ⟨rfl, rfl, ⟨_, rfl, rfl, rfl⟩, by rw [State.busRead_of_not_data _ rfl]; rfl⟩
  case lost =>
    rw [State.busWrite_of_busy_guarded w hbusy rfl]
    exact ⟨rfl, rfl, wbusyBit_statusLost _, by rw [State.busRead_of_not_data _ rfl]; rfl⟩
  case illegal => exact ⟨_, engineComplete_of_decode_error s hdecode, completedError_completeError s .illegal⟩

/-- Every completion sets DONE and leaves CTRL (R35). -/
theorem irq_complete (s : State) (r : Except ErrCode Effect) : (s.complete r).irq = ieBit s.ctrl := by
  cases r <;> simp [State.irq]

/-- Settles O56: every completion sets DONE; a write of 1 to DONE and an acceptance clear it. -/
theorem irqFollowsDone : Obligations.IrqFollowsDone := by
  refine ⟨fun s => rfl, fun i s t hexec => ?completion, fun s v hv => ?write, fun s w n => ?acceptance⟩
  case completion =>
    rw [exec_eq_complete, Host.Outcome.next.injEq] at hexec
    rw [← hexec, irq_complete]
  case write => simp [State.irq, hv]
  case acceptance => simp [State.irq]

end Sys2Proof.Machine

/-! The machine's invariant (spec/10_state.md R33 to R37, spec/20_memory.md R49, spec/60_exceptions.md R160,
spec/70_reset_and_hazards.md R180, R182, R186, R190): every event keeps it, and what the events of a BUSY window leave. -/

namespace Sys2Proof.Machine

/-! ### The clauses about STATUS alone -/

/-- The clauses of `StateInv` about the word in STATUS. -/
structure StatusInv (st : Word) : Prop where
  flight : busyBit st = true → doneBit st = false ∧ errBit st = false ∧ ecodeField st = 0#4
  err_code : errBit st = true → ecodeField st ≠ 0#4
  ecode_le : (ecodeField st).toNat ≤ 8
  reserved : st &&& 0xFFFFF0F0#32 = 0#32

theorem StateInv.status {s : State} (h : StateInv s) : StatusInv s.status :=
  ⟨h.flight_status, h.err_code, h.ecode_le, h.status_reserved⟩

/-- An update that sets no reserved bit keeps the reserved bits 0. -/
theorem reserved_of_bits {st st' : Word} (h : st &&& 0xFFFFF0F0#32 = 0#32)
    (hbits : ∀ j, 4 ≤ j → (j < 8 ∨ 12 ≤ j) → st.getLsbD j = false → st'.getLsbD j = false) :
    st' &&& 0xFFFFF0F0#32 = 0#32 := by
  rw [and_eq_zero_iff_bits] at h ⊢
  intro j hj hmask
  have hbit := h j hj hmask
  rw [getLsbD_statusReserved, decide_eq_true_iff] at hmask
  exact hbits j (by omega) (by omega) hbit

theorem StatusInv.statusAccept {st : Word} (h : StatusInv st) : StatusInv (statusAccept st) where
  flight _ := ⟨doneBit_statusAccept st, errBit_statusAccept st, ecodeField_statusAccept st⟩
  err_code herr := by rw [errBit_statusAccept] at herr; cases herr
  ecode_le := by rw [ecodeField_statusAccept]; decide
  reserved := reserved_of_bits h.reserved fun j h4 _ hbit => by
    rw [getLsbD_statusAccept, if_neg (by omega)]
    split_ifs
    · rfl
    · exact hbit

theorem StatusInv.statusDone {st : Word} (h : StatusInv st) : StatusInv (statusDone st) where
  flight hbusy := by rw [busyBit_statusDone] at hbusy; cases hbusy
  err_code := by rw [errBit_statusDone, ecodeField_statusDone]; exact h.err_code
  ecode_le := by rw [ecodeField_statusDone]; exact h.ecode_le
  reserved := reserved_of_bits h.reserved fun j h4 _ hbit => by
    rw [getLsbD_statusDone, if_neg (by omega), if_neg (by omega)]
    exact hbit

theorem StatusInv.statusError {st : Word} (h : StatusInv st) (e : ErrCode) : StatusInv (statusError e st) where
  flight hbusy := by rw [busyBit_statusError] at hbusy; cases hbusy
  err_code _ := by rw [ecodeField_statusError]; exact e.code_ne_zero
  ecode_le := by rw [ecodeField_statusError]; exact e.code_le
  reserved := reserved_of_bits h.reserved fun j h4 _ hbit => by
    rw [getLsbD_statusError, if_neg (by omega), if_neg (by omega), if_neg (by omega)]
    exact hbit

theorem StatusInv.statusWrite {st : Word} (h : StatusInv st) (v : Word) : StatusInv (statusWrite v st) where
  flight := by
    rw [busyBit_statusWrite, doneBit_statusWrite, errBit_statusWrite, ecodeField_statusWrite]
    intro hbusy
    obtain ⟨hdone, herr, hecode⟩ := h.flight hbusy
    rw [hdone, herr, Bool.false_and, Bool.false_and]
    exact ⟨rfl, rfl, hecode⟩
  err_code := by
    rw [errBit_statusWrite, ecodeField_statusWrite, Bool.and_eq_true]
    exact fun ⟨herr, _⟩ => h.err_code herr
  ecode_le := by rw [ecodeField_statusWrite]; exact h.ecode_le
  reserved := reserved_of_bits h.reserved fun j h4 _ hbit => by
    rw [getLsbD_statusWrite, hbit, Bool.false_and]

theorem StatusInv.statusLost {st : Word} (h : StatusInv st) : StatusInv (statusLost st) where
  flight := by rw [busyBit_statusLost, doneBit_statusLost, errBit_statusLost, ecodeField_statusLost]; exact h.flight
  err_code := by rw [errBit_statusLost, ecodeField_statusLost]; exact h.err_code
  ecode_le := by rw [ecodeField_statusLost]; exact h.ecode_le
  reserved := reserved_of_bits h.reserved fun j h4 _ hbit => by
    rw [getLsbD_statusLost, if_neg (by omega)]
    exact hbit

theorem statusInv_zero : StatusInv 0#32 := ⟨by decide, by decide, by decide, by decide⟩

/-- A word of which n bits are kept has no bit of a mask whose low n bits are 0. -/
theorem keepLow_and_mask {n : Nat} (v : Word) {mask : Word} (hn : n < 32) (hmask : ∀ j, j < n → mask.getLsbD j = false) :
    keepLow n v &&& mask = 0#32 := by
  refine and_mask_eq_zero_of_lt ?_ hmask
  rw [keepLow_eq_ofNat v hn, BitVec.toNat_ofNat]
  exact (Nat.mod_le _ _).trans_lt (Nat.mod_lt _ (Nat.two_pow_pos n))

/-! ### States with and without a command in flight -/

/-- Where no command is in flight the invariant is that of the control registers. -/
theorem StateInv.of_idle {s : State} (hidle : s.inFlight = none) (hbusy : busyBit s.status = false)
    (hstatus : StatusInv s.status) (hctrl : s.ctrl &&& 0xFFFFFFFE#32 = 0#32)
    (hscale : s.scale &&& 0xFFFF0000#32 = 0#32) (hrscale : s.rscale.toNat ≤ 76) : StateInv s where
  busy_eq := by rw [hbusy, hidle]; rfl
  flight_word f hf := by rw [hidle] at hf; cases hf
  flight_src f hf := by rw [hidle] at hf; cases hf
  flight_scratch f hf := by rw [hidle] at hf; cases hf
  flight_status := hstatus.flight
  err_code := hstatus.err_code
  ecode_le := hstatus.ecode_le
  status_reserved := hstatus.reserved
  ctrl_reserved := hctrl
  scale_reserved := hscale
  rscale_le := hrscale

/-- With BUSY = 0 nothing is in flight. -/
theorem StateInv.inFlight_of_idle {s : State} (h : StateInv s) (hbusy : busyBit s.status = false) : s.inFlight = none := by
  rw [h.busy_eq] at hbusy
  exact Option.not_isSome_iff_eq_none.mp (by rw [hbusy]; decide)

theorem StateInv.busy_of_inFlight {s : State} {f : InFlight} (h : StateInv s) (hf : s.inFlight = some f) :
    busyBit s.status = true := by rw [h.busy_eq, hf]; rfl

/-- An event that leaves what is in flight, CMD, the source registers, BUSY and RSCALE keeps the invariant where it keeps
that of STATUS and of CTRL. -/
theorem StateInv.of_same_flight {s t : State} (h : StateInv s) (hflight : t.inFlight = s.inFlight) (hcmd : t.cmd = s.cmd)
    (hsnapshot : t.snapshot = s.snapshot) (hbusy : busyBit t.status = busyBit s.status) (hstatus : StatusInv t.status)
    (hctrl : t.ctrl &&& 0xFFFFFFFE#32 = 0#32) (hrscale : t.rscale = s.rscale) : StateInv t where
  busy_eq := by rw [hbusy, hflight]; exact h.busy_eq
  flight_word f hf := by rw [hcmd]; exact h.flight_word f (hflight ▸ hf)
  flight_src f hf := by rw [hsnapshot]; exact h.flight_src f (hflight ▸ hf)
  flight_scratch f hf := h.flight_scratch f (hflight ▸ hf)
  flight_status := hstatus.flight
  err_code := hstatus.err_code
  ecode_le := hstatus.ecode_le
  status_reserved := hstatus.reserved
  ctrl_reserved := hctrl
  scale_reserved := by
    have hscale : t.scale = s.scale := congrArg Sources.scale hsnapshot
    rw [hscale]
    exact h.scale_reserved
  rscale_le := by rw [hrscale]; exact h.rscale_le

/-! ### Each event keeps the invariant -/

/-- Acceptance puts the accepted word in flight with its own snapshot and scratch (R34, R37). -/
theorem StateInv.acceptDrawn {s : State} (h : StateInv s) (w : Word) : StateInv (s.acceptDrawn w) where
  busy_eq := busyBit_statusAccept s.status
  flight_word f hf := by cases hf; rfl
  flight_src f hf := by cases hf; rfl
  flight_scratch f hf := by cases hf; rfl
  flight_status := h.status.statusAccept.flight
  err_code := h.status.statusAccept.err_code
  ecode_le := h.status.statusAccept.ecode_le
  status_reserved := h.status.statusAccept.reserved
  ctrl_reserved := h.ctrl_reserved
  scale_reserved := h.scale_reserved
  rscale_le := h.rscale_le

theorem StateInv.tick {s : State} {f : InFlight} (h : StateInv s) (hf : s.inFlight = some f) (n : Nat) :
    StateInv (s.tick f n) where
  busy_eq := h.busy_of_inFlight hf
  flight_word g hg := by cases hg; exact h.flight_word f hf
  flight_src g hg := by cases hg; exact h.flight_src f hf
  flight_scratch g hg := by cases hg; exact h.flight_scratch f hf
  flight_status := h.flight_status
  err_code := h.err_code
  ecode_le := h.ecode_le
  status_reserved := h.status_reserved
  ctrl_reserved := h.ctrl_reserved
  scale_reserved := h.scale_reserved
  rscale_le := h.rscale_le

/-- A completion without error writes no other register of the invariant than RSCALE, and that with a legal scale. -/
theorem StateInv.completeOk {s : State} {i : Instr} {e : Effect} (h : StateInv s) (he : IsEffectOf i e) :
    StateInv (s.completeOk e) := by
  have hrscale : (s.apply e).rscale.toNat ≤ 76 := by
    cases e with
    | none | digits | mag => exact h.rscale_le
    | decimal rd v rs =>
      have hrs : rs ≤ 76 := by
        cases i with
        | muldec | muldecDefault | divdec | divdecDefault =>
          obtain ⟨v', rs', heq, hle⟩ := he
          cases heq
          exact hle
        | ovchk => cases he
        | fromdig => obtain ⟨v', heq⟩ := he; cases heq
        | todig | dmul | ddiv | dalign => obtain ⟨q, heq⟩ := he; cases heq
      rw [State.apply_decimal_rscale, toNat_keepLow_eight hrs]
      exact hrs
  refine StateInv.of_idle rfl (busyBit_statusDone s.status) h.status.statusDone ?_ ?_ hrscale
  · rw [State.completeOk_ctrl, State.apply_ctrl]
    exact h.ctrl_reserved
  · rw [State.completeOk_scale, State.apply_scale]
    exact h.scale_reserved

theorem StateInv.completeError {s : State} (h : StateInv s) (e : ErrCode) : StateInv (s.completeError e) :=
  StateInv.of_idle rfl (busyBit_statusError e s.status) (h.status.statusError e) h.ctrl_reserved h.scale_reserved h.rscale_le

theorem StateInv.engineComplete {s t : State} {f : InFlight} (h : StateInv s) (hstep : engineComplete f s = .next t) :
    StateInv t := by
  cases hdecode : decode f.word with
  | error e =>
    rw [engineComplete_of_decode_error s hdecode, Host.Outcome.next.injEq] at hstep
    rw [← hstep]
    exact h.completeError .illegal
  | ok i =>
    simp only [Machine.engineComplete, hdecode, exec_eq_complete, Host.Outcome.next.injEq] at hstep
    rw [← hstep]
    have hanswer := isAnswerOf_commandResult i s.sources
    cases hresult : commandResult i s.sources with
    | error e => exact h.completeError e
    | ok e =>
      rw [hresult] at hanswer
      exact h.completeOk hanswer

theorem stateInv_assertRst (s : State) : StateInv s.assertRst :=
  StateInv.of_idle rfl (by rw [State.assertRst_status]; decide) statusInv_zero BitVec.zero_and BitVec.zero_and
    (Nat.zero_le 76)

theorem StateInv.hostRead {s : State} (h : StateInv s) (r : Reg) : StateInv (s.hostRead r) := by
  rw [State.hostRead_eq]
  exact h.of_same_flight rfl rfl rfl rfl h.status h.ctrl_reserved rfl

/-- The host's own list is no part of the invariant. -/
theorem StateInv.withHost {s : State} (h : StateInv s) (ops : List HostOp) : StateInv { s with host := ops } :=
  h.of_same_flight rfl rfl rfl rfl h.status h.ctrl_reserved rfl

/-- A guarded register is written only where nothing is in flight (R49); the others are no sources. -/
theorem StateInv.busWrite {s : State} (h : StateInv s) (r : Reg) (v : Word) : StateInv (s.busWrite r v) := by
  obtain ⟨hlost, -, -⟩ | ⟨hwrite, hidle⟩ := s.busWrite_cases r v
  · rw [hlost]
    exact h.of_same_flight rfl rfl rfl (busyBit_statusLost _) h.status.statusLost h.ctrl_reserved rfl
  · rw [hwrite]
    have hguarded : r.isGuarded = true → busyBit s.status = false ∧ s.inFlight = none := by
      intro hr
      have hbusy : busyBit s.status = false := hidle.resolve_right (by rw [hr]; decide)
      exact ⟨hbusy, h.inFlight_of_idle hbusy⟩
    cases r with
    | id | rscale | cfg | reserved => exact h
    | ctrl => exact h.of_same_flight rfl rfl rfl rfl h.status (keepLow_and_mask v (by decide) (by decide)) rfl
    | status => exact h.of_same_flight rfl rfl rfl (busyBit_statusWrite v _) (h.status.statusWrite v) h.ctrl_reserved rfl
    | cmd => exact h.acceptDrawn v
    | scale =>
      obtain ⟨hbusy, hflight⟩ := hguarded rfl
      exact .of_idle hflight hbusy h.status h.ctrl_reserved (keepLow_and_mask v (by decide) (by decide)) h.rscale_le
    | len | mag | window =>
      obtain ⟨hbusy, hflight⟩ := hguarded rfl
      exact .of_idle hflight hbusy h.status h.ctrl_reserved h.scale_reserved h.rscale_le

theorem StateInv.hostEvent {s t : State} {op : HostOp} (h : StateInv s) (hstep : hostEvent op s = .next t) :
    StateInv t := by
  obtain ⟨width, off, -, rfl⟩ | ⟨width, off, v, -, rfl⟩ | ⟨-, -, rfl⟩ | ⟨-, -, rfl⟩ | ⟨k, -, rfl⟩ | ⟨-, rfl⟩ | ⟨-, rfl⟩ :=
    hostEvent_cases hstep
  · exact h.hostRead _
  · exact h.busWrite _ v
  · exact h.withHost _
  · exact h.hostRead _
  · exact (h.hostRead _).withHost _
  · exact stateInv_assertRst s
  · exact h

theorem StateInv.hostCycle {s t : State} (h : StateInv s) (hstep : hostCycle s = .next t) : StateInv t := by
  obtain ⟨-, rfl⟩ | ⟨op, rest, -, hevent⟩ := hostCycle_cases hstep
  · exact h
  · exact (h.withHost rest).hostEvent hevent

/-! ### The BUSY window -/

/-- With BUSY = 1 a write leaves what is in flight, CMD and the host's pending operations (R49, R182). -/
theorem busWrite_of_busy {s : State} (r : Reg) (v : Word) (hbusy : busyBit s.status = true) :
    (s.busWrite r v).inFlight = s.inFlight ∧ (s.busWrite r v).cmd = s.cmd ∧ (s.busWrite r v).host = s.host := by
  obtain ⟨hlost, -, -⟩ | ⟨hwrite, hidle | hfree⟩ := s.busWrite_cases r v
  · rw [hlost]
    exact ⟨rfl, rfl, rfl⟩
  · rw [hbusy] at hidle
    cases hidle
  · rw [hwrite]
    cases r with
    | id | ctrl | status | rscale | cfg | reserved => exact ⟨rfl, rfl, rfl⟩
    | cmd | scale | len | mag | window => cases hfree

/-- With BUSY = 1 every host operation but RST leaves what is in flight and CMD (R182). -/
theorem hostEvent_keeps_flight {s t : State} {op : HostOp} (hbusy : busyBit s.status = true) (hop : op ≠ .rst)
    (hstep : hostEvent op s = .next t) : t.inFlight = s.inFlight ∧ t.cmd = s.cmd := by
  obtain ⟨width, off, -, rfl⟩ | ⟨width, off, v, -, rfl⟩ | ⟨-, -, rfl⟩ | ⟨-, -, rfl⟩ | ⟨k, -, rfl⟩ | ⟨hrst, -⟩ | ⟨-, rfl⟩ :=
    hostEvent_cases hstep
  · rw [State.hostRead_eq]
    exact ⟨rfl, rfl⟩
  · obtain ⟨hflight, hcmd, -⟩ := busWrite_of_busy (regAt off) v hbusy
    exact ⟨hflight, hcmd⟩
  · exact ⟨rfl, rfl⟩
  · rw [State.hostRead_eq]
    exact ⟨rfl, rfl⟩
  · rw [State.hostRead_eq]
    exact ⟨rfl, rfl⟩
  · exact absurd hrst hop
  · exact ⟨rfl, rfl⟩

/-! ### Supported accesses -/

/-- An access the interface has is 32 bits wide, aligned and within the 4096 bytes (R40, R41). -/
theorem supported_access_iff {width off : Nat} :
    (width = 32 && off % 4 = 0 && off < Config.spaceSize : Bool) = true ↔ width = 32 ∧ off % 4 = 0 ∧ off < 4096 := by
  simp only [Bool.and_eq_true, decide_eq_true_eq, and_assoc]
  rfl

theorem ne_rst_of_supported {op : HostOp} (h : op.supported = true) : op ≠ .rst := by
  rintro rfl
  cases h

/-- A supported operation has an answer (R41). -/
theorem hostEvent_of_supported {op : HostOp} (s : State) (h : op.supported = true) : ∃ t, hostEvent op s = .next t := by
  cases op with
  | read width off =>
    obtain ⟨rfl, haligned, hspace⟩ := supported_access_iff.mp h
    exact ⟨_, hostEvent_read s haligned hspace⟩
  | write width off v =>
    obtain ⟨rfl, haligned, hspace⟩ := supported_access_iff.mp h
    exact ⟨_, hostEvent_write s v haligned hspace⟩
  | wait =>
    rw [hostEvent]
    split
    · exact ⟨_, rfl⟩
    · exact ⟨_, rfl⟩
  | getd | rst | idle => exact ⟨_, rfl⟩

/-- The reads that GETD queues are supported: the digit window lies in the register space (R44). -/
theorem supported_of_mem_opsWindows {k : DIdx} {len : Word} {op : HostOp} (h : op ∈ opsWindows k len) :
    op.supported = true := by
  rw [opsWindows_eq_windowReads, windowReads, List.mem_map] at h
  obtain ⟨w, hw, rfl⟩ := h
  rw [List.mem_range] at hw
  have hk : k.val < 4 := k.isLt
  exact supported_access_iff.mpr (by omega)

/-- With BUSY = 1 a supported operation leaves supported operations pending. -/
theorem hostEvent_keeps_supported {s t : State} {op : HostOp} (hbusy : busyBit s.status = true)
    (hop : op.supported = true) (hhost : ∀ p ∈ s.host, p.supported = true) (hstep : hostEvent op s = .next t) :
    ∀ p ∈ t.host, p.supported = true := by
  obtain ⟨width, off, -, rfl⟩ | ⟨width, off, v, -, rfl⟩ | ⟨-, -, rfl⟩ | ⟨-, -, rfl⟩ | ⟨k, -, rfl⟩ | ⟨hrst, -⟩ | ⟨-, rfl⟩ :=
    hostEvent_cases hstep
  · rw [State.hostRead_eq]
    exact hhost
  · obtain ⟨-, -, hsame⟩ := busWrite_of_busy (regAt off) v hbusy
    rw [hsame]
    exact hhost
  · exact List.forall_mem_cons.mpr ⟨rfl, hhost⟩
  · rw [State.hostRead_eq]
    exact hhost
  · exact List.forall_mem_append.mpr ⟨fun p hp => supported_of_mem_opsWindows hp, hhost⟩
  · exact absurd hrst (ne_rst_of_supported hop)
  · exact hhost

/-- A bus cycle of a host with supported operations, in a BUSY window: it has an answer, in which the command is still in
flight and the pending operations are supported. -/
theorem hostCycle_of_supported {s : State} (hbusy : busyBit s.status = true)
    (hhost : ∀ op ∈ s.host, op.supported = true) :
    ∃ t, hostCycle s = .next t ∧ t.inFlight = s.inFlight ∧ t.cmd = s.cmd ∧ ∀ op ∈ t.host, op.supported = true := by
  cases hops : s.host with
  | nil => exact ⟨s, by rw [hostCycle, hops], rfl, rfl, hhost⟩
  | cons op rest =>
    rw [hops, List.forall_mem_cons] at hhost
    obtain ⟨hop, hrest⟩ := hhost
    obtain ⟨t, hstep⟩ := hostEvent_of_supported { s with host := rest } hop
    obtain ⟨hflight, hcmd⟩ := hostEvent_keeps_flight (s := { s with host := rest }) hbusy (ne_rst_of_supported hop) hstep
    refine ⟨t, ?_, hflight, hcmd, hostEvent_keeps_supported (s := { s with host := rest }) hbusy hop hrest hstep⟩
    rw [hostCycle, hops]
    exact hstep

/-! ### A command's run to its completion (R190) -/

theorem core_run_succ {s t : State} (k : Nat) (h : step s = .next t) :
    Sys2Proof.core.run (k + 1) s = Sys2Proof.core.run k t := by
  have hstep : Sys2Proof.core.step s = .next t := h
  simp only [Host.Core.run, hstep]

theorem step_of_wait {s : State} {f : InFlight} {n : Nat} (hflight : s.inFlight = some f) (hwait : f.wait = n + 1) :
    step s = hostCycle (s.tick f n) := by
  simp only [step, hflight, hwait]

/-- The completion event leaves nothing in flight, sets DONE and keeps CMD (R35). -/
theorem engineComplete_completes (f : InFlight) (s : State) :
    ∃ t, engineComplete f s = .next t ∧ t.inFlight = none ∧ doneBit t.status = true ∧ t.cmd = s.cmd := by
  obtain ⟨r, hr⟩ : ∃ r, engineComplete f s = .next (s.complete r) := ⟨_, engineComplete_eq f s⟩
  refine ⟨_, hr, ?_⟩
  cases r with
  | error e => exact ⟨rfl, doneBit_statusError e s.status, rfl⟩
  | ok e => exact ⟨rfl, doneBit_statusDone s.status, s.apply_cmd e⟩

/-! ### What a register write leaves (R182) -/

/-- A digit register written in one of its two parts keeps the other part, and the other registers keep both. -/
theorem getElem_set_keeps {α : Type} (d : Vector DigitReg 4) (k j : DIdx) (x : DigitReg) (part : DigitReg → α)
    (hpart : part x = part d[k]) : part (d.set k x)[j] = part d[j] := by
  by_cases hj : k.val = j.val
  · obtain rfl : k = j := Fin.ext hj
    rw [Fin.getElem_fin, Vector.getElem_set_self, hpart]
  · rw [Fin.getElem_fin, Vector.getElem_set_ne _ _ hj, Fin.getElem_fin]

/-- A write leaves every other register but STATUS as it reads: a digit register's LEN and its window words, and the words
of a magnitude register, are registers of their own. -/
theorem readReg_writeReg_of_ne (s : State) {r r' : Reg} (v : Word) (hne : r' ≠ r) (hstatus : r' ≠ .status) :
    (s.writeReg r v).readReg r' = s.readReg r' := by
  cases r with
  | id | rscale | cfg | reserved => rfl
  | ctrl =>
    cases r' with
    | ctrl => exact absurd rfl hne
    | _ => rfl
  | status =>
    cases r' with
    | status => exact absurd rfl hstatus
    | _ => rfl
  | cmd =>
    cases r' with
    | cmd => exact absurd rfl hne
    | status => exact absurd rfl hstatus
    | _ => rfl
  | scale =>
    cases r' with
    | scale => exact absurd rfl hne
    | _ => rfl
  | len k =>
    cases r' with
    | status => exact absurd rfl hstatus
    | len j =>
      have hj : k.val ≠ j.val := fun h => hne (congrArg Reg.len (Fin.ext h.symm))
      exact congrArg (fun x : DigitReg => x.len.setWidth 32) (Vector.getElem_set_ne k.isLt j.isLt hj)
    | window j w => exact congrArg (windowWord · w) (getElem_set_keeps s.d k j _ DigitReg.cells rfl)
    | _ => rfl
  | mag k w =>
    cases r' with
    | status => exact absurd rfl hstatus
    | mag j w' =>
      by_cases hj : k.val = j.val
      · obtain rfl : k = j := Fin.ext hj
        have hw : w' ≠ w := fun h => hne (congrArg (Reg.mag k) h)
        rw [State.readReg, State.writeReg_mag_m_self, magWord_setMagWord_of_ne _ v hw, State.readReg]
      · exact congrArg (magWord · w') (Vector.getElem_set_ne k.isLt j.isLt hj)
    | _ => rfl
  | window k w =>
    cases r' with
    | status => exact absurd rfl hstatus
    | len j => exact congrArg (BitVec.setWidth 32) (getElem_set_keeps s.d k j _ DigitReg.len rfl)
    | window j w' =>
      by_cases hj : k.val = j.val
      · obtain rfl : k = j := Fin.ext hj
        have hw : w' ≠ w := fun h => hne (congrArg (Reg.window k) h)
        rw [State.readReg, State.writeReg_window_d_self, windowWord_setWindowWord_of_ne _ v hw, State.readReg]
      · exact congrArg (fun x : DigitReg => windowWord x.cells w') (Vector.getElem_set_ne k.isLt j.isLt hj)
    | _ => rfl

/-- A write to any register but CMD leaves BUSY and what is in flight (R182). -/
theorem writeReg_keeps_flight (s : State) {r : Reg} (v : Word) (hne : r ≠ .cmd) :
    (s.writeReg r v).inFlight = s.inFlight ∧ busyBit (s.writeReg r v).status = busyBit s.status := by
  cases r with
  | cmd => exact absurd rfl hne
  | status => exact ⟨rfl, busyBit_statusWrite v s.status⟩
  | _ => exact ⟨rfl, rfl⟩

/-! ### The discipline of R186 -/

/-- A write that no BUSY window can lose is of CTRL, of STATUS or of a register that stores nothing (R49). -/
theorem writeReg_of_not_guarded (s : State) {r : Reg} (v : Word) (h : r.isGuarded = false) :
    (wbusyBit (s.writeReg r v).status = true → wbusyBit s.status = true) ∧
    (s.writeReg r v).draws = s.draws ∧ (s.writeReg r v).m = s.m ∧ (s.writeReg r v).d = s.d := by
  cases r with
  | id | ctrl | rscale | cfg | reserved => exact ⟨id, rfl, rfl, rfl⟩
  | status =>
    refine ⟨fun hset => ?_, rfl, rfl, rfl⟩
    rw [State.writeReg, wbusyBit_statusWrite, Bool.and_eq_true] at hset
    exact hset.1
  | cmd | scale | len | mag | window => cases h

/-- With BUSY = 1 a host operation within the discipline sets no WBUSY, draws no free value and leaves the data registers
(R186, R187). -/
theorem hostEvent_of_disciplined {s t : State} {op : HostOp} (hbusy : busyBit s.status = true)
    (hop : op.disciplined = true) (hstep : hostEvent op s = .next t) :
    (wbusyBit t.status = true → wbusyBit s.status = true) ∧ t.draws = s.draws ∧ t.m = s.m ∧ t.d = s.d := by
  cases op with
  | read width off =>
    obtain ⟨haccess, hfree⟩ := Bool.and_eq_true_iff.mp hop
    obtain ⟨rfl, haligned, hspace⟩ := supported_access_iff.mp haccess
    rw [hostEvent_read s haligned hspace, Host.Outcome.next.injEq] at hstep
    rw [← hstep, State.hostRead_eq, s.busRead_of_not_data (Bool.not_eq_true' _ ▸ hfree)]
    exact ⟨id, rfl, rfl, rfl⟩
  | write width off v =>
    obtain ⟨haccess, hfree⟩ := Bool.and_eq_true_iff.mp hop
    obtain ⟨rfl, haligned, hspace⟩ := supported_access_iff.mp haccess
    have hguard : (regAt off).isGuarded = false := Bool.not_eq_true' _ ▸ hfree
    rw [hostEvent_write s v haligned hspace, Host.Outcome.next.injEq] at hstep
    rw [← hstep, s.busWrite_of_not_guarded v hguard]
    exact writeReg_of_not_guarded s v hguard
  | wait =>
    rw [hostEvent, if_pos hbusy, Host.Outcome.next.injEq] at hstep
    rw [← hstep]
    exact ⟨id, rfl, rfl, rfl⟩
  | idle =>
    cases hstep
    exact ⟨id, rfl, rfl, rfl⟩
  | getd | rst => cases hop

/-! ### The obligations -/

/-- Settles O1: the registers of the reset state, one by one. -/
theorem resetControlRegisters : Obligations.ResetControlRegisters :=
  ⟨rfl, rfl, rfl, rfl, rfl, rfl, rfl, rfl, State.irq_of_masked (by decide)⟩

/-- Settles O2: nothing is in flight at reset and the control registers are 0. -/
theorem resetSatisfiesInvariant : Obligations.ResetSatisfiesInvariant :=
  StateInv.of_idle rfl rfl statusInv_zero rfl rfl (by decide)

/-- Settles O3: a step is a completion or a bus cycle of the host, and each of these events keeps every clause. -/
theorem stepKeepsInvariant : Obligations.StepKeepsInvariant := by
  intro s t hinv hstep
  obtain ⟨-, hcycle⟩ | ⟨f, n, hflight, -, hcycle⟩ | ⟨f, -, -, hcomplete⟩ := step_cases hstep
  · exact hinv.hostCycle hcycle
  · exact (hinv.tick hflight n).hostCycle hcycle
  · exact hinv.engineComplete hcomplete

/-- Settles O12, by induction on the wait: a cycle of the host leaves the command in flight with one cycle less, and with
none left the completion event follows. -/
theorem commandInFlightCompletes : Obligations.CommandInFlightCompletes := by
  intro s f hinv hflight hhost
  induction hwait : f.wait generalizing s f with
  | zero =>
    obtain ⟨t, hcomplete, hnone, hdone, hcmd⟩ := engineComplete_completes f s
    exact ⟨t, core_run_succ 0 ((step_eq_engineComplete hflight hwait).trans hcomplete), hnone, hdone, hcmd⟩
  | succ n ih =>
    have htick : StateInv (s.tick f n) := hinv.tick hflight n
    have hbusy : busyBit (s.tick f n).status = true := hinv.busy_of_inFlight hflight
    obtain ⟨u, hcycle, huflight, hucmd, huhost⟩ := hostCycle_of_supported hbusy hhost
    obtain ⟨t, hrun, hnone, hdone, hcmd⟩ := ih u { f with wait := n } (htick.hostCycle hcycle) huflight huhost rfl
    exact ⟨t, (core_run_succ _ ((step_of_wait hflight hwait).trans hcycle)).trans hrun, hnone, hdone, hcmd.trans hucmd⟩

/-- Settles O13: with BUSY = 1 only RST touches what is in flight; a write that is not lost goes to its own register, and
only CMD's is an acceptance. -/
theorem onlyRstAbandonsCommand : Obligations.OnlyRstAbandonsCommand := by
  refine ⟨fun s t f n hinv hflight hwait hhead hstep => ?window, fun s r v => ⟨fun r' hne hstatus => ?frame, fun hne => ?flight⟩⟩
  case window =>
    have hbusy : busyBit (s.tick f n).status = true := hinv.busy_of_inFlight hflight
    rw [step_of_wait hflight hwait] at hstep
    obtain ⟨-, rfl⟩ | ⟨op, rest, hhost, hevent⟩ := hostCycle_cases hstep
    · exact ⟨rfl, rfl⟩
    · have hop : op ≠ .rst := by
        rintro rfl
        exact hhead (by rw [show s.host = _ from hhost]; rfl)
      exact hostEvent_keeps_flight (s := { s.tick f n with host := rest }) hbusy hop hevent
  case frame =>
    obtain ⟨hlost, -, -⟩ | ⟨hwrite, -⟩ := s.busWrite_cases r v
    · rw [hlost]
      cases r' with
      | status => exact absurd rfl hstatus
      | _ => rfl
    · rw [hwrite, readReg_writeReg_of_ne s v hne hstatus]
  case flight =>
    obtain ⟨hlost, -, -⟩ | ⟨hwrite, -⟩ := s.busWrite_cases r v
    · rw [hlost]
      exact ⟨rfl, busyBit_statusLost s.status⟩
    · rw [hwrite]
      exact writeReg_keeps_flight s v hne

/-- Settles O55: an operation within the discipline draws no free value and writes none but CTRL and STATUS. -/
theorem disciplinedHostLosesNothing : Obligations.DisciplinedHostLosesNothing := by
  intro s t op rest f n hinv hflight hwait hhost hop hstep
  have hbusy : busyBit s.status = true := hinv.busy_of_inFlight hflight
  rw [step_of_hostTurn (.inr ⟨f, n, hflight, hwait, rfl⟩) hhost] at hstep
  exact hostEvent_of_disciplined (s := { s with host := rest, inFlight := some { f with wait := n } }) hbusy hop hstep

/-- Settles O57: RST is the host's operation, and after it nothing is in flight and the control registers are 0. -/
theorem rstResetsControl : Obligations.RstResetsControl := by
  refine ⟨fun s u rest hturn hhost => step_of_hostTurn hturn hhost, fun s => ?after⟩
  case after => exact ⟨rfl, rfl, rfl, rfl, rfl, rfl, State.irq_of_masked (by rw [State.assertRst_ctrl]; decide), rfl, rfl, stateInv_assertRst s⟩

end Sys2Proof.Machine

/-! Digit sequences (spec/00_scope.md R14 to R16, spec/10_state.md R32, spec/40_digit_conversion.md R83): what a register
holds, canonical sequences, and the value as a weighted sum. -/

namespace Sys2Proof.Machine

theorem allDigits_iff {q : DigitSeq} : allDigits q = true ↔ ∀ x ∈ q, x ≤ 9 := by
  simp only [allDigits, List.all_eq_true, decide_eq_true_eq]

/-! ### What a register holds (R32) -/

/-- Within a LEN of at most 256 the register holds its cells (R30). -/
theorem DigitReg.holds_held {r : DigitReg} (hlen : r.len.toNat ≤ 256) : r.Holds r.held := by
  have hheld : r.held.length = r.len.toNat := by rw [DigitReg.length_held, Nat.min_eq_left hlen]
  exact ⟨hheld.symm, fun i hi hiq => (DigitReg.held_getD r i hi (hheld ▸ hiq)).symm⟩

/-- A register is readable unless LEN exceeds 256 or a cell within LEN is above 9. -/
theorem DigitReg.source_held {r : DigitReg} (hlen : r.len.toNat ≤ 256) (hgood : ¬r.BadDigit) : r.Source r.held := by
  have hheld : r.held.length ≤ 256 := by rw [DigitReg.length_held]; exact Nat.min_le_right _ _
  refine ⟨DigitReg.holds_held hlen, hheld, fun x hx => ?digit⟩
  case digit =>
    obtain ⟨i, hi, rfl⟩ := List.mem_iff_getElem.mp hx
    have hcell : i < 256 := by omega
    have hin : i < r.len.toNat := by rw [DigitReg.length_held] at hi; omega
    rw [← List.getD_eq_getElem _ 0 hi, DigitReg.held_getD r i hcell hin]
    exact Nat.not_lt.mp fun h => hgood ⟨hlen, i, hcell, hin, h⟩

/-! ### Canonical sequences (R14, R16) -/

/-- A nonempty sequence that does not start with 0 is canonical. -/
theorem canonical_of_head_ne_zero {q : DigitSeq} (hne : q ≠ []) (h : q.head hne ≠ 0) : canonical q = true := by
  match q with
  | [] => exact absurd rfl hne
  | [_] => rfl
  | _ :: _ :: _ => exact decide_eq_true h

/-- The library's digits of a positive number end in a digit other than 0, so reversed they start with one. -/
theorem canonical_decimal (x : Nat) : canonical (decimal x) = true := by
  unfold decimal
  split
  case isTrue => rfl
  case isFalse hx =>
    have hne : Nat.digits 10 x ≠ [] := Nat.digits_ne_nil_iff_ne_zero.mpr hx
    refine canonical_of_head_ne_zero (List.reverse_ne_nil_iff.mpr hne) ?_
    rw [List.head_reverse]
    exact Nat.getLast_digit_ne_zero 10 hx

/-! ### The value as a sum (R15, R83) -/

theorem value_eq_sum (q : DigitSeq) : value q = ∑ i ∈ Finset.range q.length, q.getD i 0 * 10 ^ (q.length - 1 - i) := by
  induction q with
  | nil => rfl
  | cons x xs ih =>
    rw [value, ih, List.length_cons, Finset.sum_range_succ', Nat.add_comm]
    refine congrArg₂ _ (Finset.sum_congr rfl fun i hi => ?_) ?_
    · have hexp : xs.length + 1 - 1 - (i + 1) = xs.length - 1 - i := by omega
      rw [hexp, List.getD_cons_succ]
    · rfl

/-- The loop of R83 adds the number that its digits denote, least significant first, times its multiplier. -/
theorem weightedSum_eq (q : DigitSeq) (v m : Nat) : weightedSum q v m = v + m * Nat.ofDigits 10 q := by
  induction q generalizing v m with
  | nil => simp [weightedSum]
  | cons x xs ih =>
    rw [weightedSum, ih, Nat.ofDigits_cons]
    ring

/-! ### The obligations -/

/-- Settles O26: the three cases are those of the read, and a sequence that a register holds is its cells within LEN. -/
theorem sourceReadCases : Obligations.SourceReadCases := by
  intro r
  refine ⟨?cases, fun q q' hq hq' => ?unique⟩
  case cases =>
    by_cases hlen : 256 < r.len.toNat
    · exact .inl ⟨hlen, DigitReg.read_of_len hlen⟩
    · by_cases hbad : r.BadDigit
      · exact .inr (.inl ⟨hbad, DigitReg.read_of_badDigit hbad⟩)
      · have hsource := DigitReg.source_held (Nat.not_lt.mp hlen) hbad
        exact .inr (.inr ⟨r.held, hsource, DigitReg.read_of_source hsource⟩)
  case unique =>
    obtain ⟨hholds, hle, -⟩ := hq
    obtain ⟨hholds', hle', -⟩ := hq'
    rw [← DigitReg.held_of_holds hholds hle, DigitReg.held_of_holds hholds' hle']

/-- Settles O35: the procedure of R81 gives the library's digits, which do not start with 0; stripping gives the library's
digits of the value. -/
theorem digitsOfIsCanonical : Obligations.DigitsOfIsCanonical := by
  refine ⟨fun x => ?digitsOf, fun q hq => ?strip⟩
  case digitsOf =>
    refine ⟨digitsOf_eq_decimal x, ?_, ?_, value_digitsOf x⟩
    · rw [digitsOf_eq_decimal]
      exact canonical_decimal x
    · rw [digitsOf_eq_decimal, allDigits_iff]
      exact fun y hy => le_nine_of_mem_decimal hy
  case strip => rw [digitsOf_eq_decimal, value_eq_decimalValue, strip_eq_decimal (allDigits_iff.mp hq)]

/-- Settles O36: the value is the sum by its recursion, and the loop over the reversed digits is the library's evaluation. -/
theorem valueIsWeightedSum : Obligations.ValueIsWeightedSum := by
  intro q
  refine ⟨value_eq_sum q, ?loop⟩
  case loop => rw [fromDigits, weightedSum_eq, Nat.zero_add, Nat.one_mul, value_eq_decimalValue, decimalValue]

end Sys2Proof.Machine

/-! The schoolbook product (spec/42_multiply_kernel.md R102): what one row and all rows add to the number that R holds, least
significant digit first. -/

namespace Sys2Proof.Machine

/-! ### One row (the inner loop) -/

/-- A row adds x times B to the digits of R that it reaches, and its carry stands above them. -/
theorem ofDigits_mulRow (x : Nat) : ∀ (ys rs : DigitSeq) (carry : Nat), ys.length = rs.length →
    Nat.ofDigits 10 (mulRow x ys rs carry).1 + 10 ^ ys.length * (mulRow x ys rs carry).2 =
      Nat.ofDigits 10 rs + x * Nat.ofDigits 10 ys + carry
  | [], [], carry, _ => by simp [mulRow]
  | y :: ys, r :: rs, carry, h => by
    have ih := ofDigits_mulRow x ys rs ((r + x * y + carry) / 10) (Nat.succ.inj h)
    have hsplit := Nat.div_add_mod (r + x * y + carry) 10
    simp only [mulRow, Nat.ofDigits_cons, List.length_cons, pow_succ]
    linear_combination 10 * ih + hsplit

theorem length_mulRow (x : Nat) : ∀ (ys rs : DigitSeq) (carry : Nat), (mulRow x ys rs carry).1.length = rs.length
  | [], _, _ => rfl
  | _ :: _, [], _ => rfl
  | y :: ys, r :: rs, carry => by
    simp only [mulRow, List.length_cons, length_mulRow x ys rs]

/-- On digits, and with a digit as carry, a row leaves digits and a digit as carry: a round adds at most 9 + 9 · 9 + 9. -/
theorem mulRow_le_nine {x : Nat} (hx : x ≤ 9) : ∀ (ys rs : DigitSeq) (carry : Nat), (∀ y ∈ ys, y ≤ 9) → (∀ r ∈ rs, r ≤ 9) →
    carry ≤ 9 → (∀ t ∈ (mulRow x ys rs carry).1, t ≤ 9) ∧ (mulRow x ys rs carry).2 ≤ 9
  | [], _, _, _, hrs, hc => ⟨hrs, hc⟩
  | _ :: _, [], _, _, hrs, hc => ⟨hrs, hc⟩
  | y :: ys, r :: rs, carry, hys, hrs, hc => by
    obtain ⟨hy, hys⟩ := List.forall_mem_cons.mp hys
    obtain ⟨hr, hrs⟩ := List.forall_mem_cons.mp hrs
    have hxy : x * y ≤ 9 * 9 := Nat.mul_le_mul hx hy
    obtain ⟨hrow, hcarry⟩ := mulRow_le_nine hx ys rs ((r + x * y + carry) / 10) hys hrs (by omega)
    exact ⟨List.forall_mem_cons.mpr ⟨by omega, hrow⟩, hcarry⟩

/-! ### All rows (the outer loop) -/

/-- The digits of R after one round: the row, its carry in the digit above, which no earlier round reached, and the zeros
that no round has reached yet. -/
theorem mulRows_cons (b xs lo : DigitSeq) (x : Nat) (hlo : lo.length = b.length) :
    mulRows b (x :: xs) (lo ++ zeros (x :: xs).length) =
      match (mulRow x b lo 0).1 ++ [(mulRow x b lo 0).2] with
      | [] => []
      | last :: rest => last :: mulRows b xs (rest ++ zeros xs.length) := by
  have htake : (lo ++ zeros (x :: xs).length).take b.length = lo := by rw [← hlo, List.take_left']; rfl
  have hdrop : (lo ++ zeros (x :: xs).length).drop (b.length + 1) = zeros xs.length := by
    rw [← hlo, List.drop_append]
    simp [zeros]
  have hnext : (lo ++ zeros (x :: xs).length).getD b.length 0 = 0 := by
    rw [← hlo, List.getD_append_right _ _ _ _ le_rfl]
    simp [zeros]
  rw [mulRows, htake, hdrop, hnext, Nat.zero_add]
  cases (mulRow x b lo 0).1 <;> simp

/-- The rounds over the digits of A add A times B to the number that R holds, and leave digits. -/
theorem mulRows_spec {b : DigitSeq} (hb : ∀ y ∈ b, y ≤ 9) : ∀ (xs lo : DigitSeq), (∀ x ∈ xs, x ≤ 9) → (∀ r ∈ lo, r ≤ 9) →
    lo.length = b.length →
    Nat.ofDigits 10 (mulRows b xs (lo ++ zeros xs.length)) =
        Nat.ofDigits 10 lo + Nat.ofDigits 10 xs * Nat.ofDigits 10 b ∧
      ∀ t ∈ mulRows b xs (lo ++ zeros xs.length), t ≤ 9
  | [], lo, _, hlo, _ => by simpa [mulRows, zeros] using hlo
  | x :: xs, lo, hxs, hlo, hlen => by
    obtain ⟨hx, hxs⟩ := List.forall_mem_cons.mp hxs
    obtain ⟨hrow, hcarry⟩ := mulRow_le_nine hx b lo 0 hb hlo (by decide)
    have hsum := ofDigits_mulRow x b lo 0 hlen.symm
    have hlength := length_mulRow x b lo 0
    rw [mulRows_cons b xs lo x hlen]
    cases hwritten : (mulRow x b lo 0).1 ++ [(mulRow x b lo 0).2] with
    | nil => simp at hwritten
    | cons last rest =>
      have hdigits : ∀ t ∈ last :: rest, t ≤ 9 := by
        rw [← hwritten]
        exact List.forall_mem_append.mpr ⟨hrow, List.forall_mem_singleton.mpr hcarry⟩
      have hvalue : last + 10 * Nat.ofDigits 10 rest = Nat.ofDigits 10 lo + x * Nat.ofDigits 10 b := by
        rw [← Nat.ofDigits_cons, ← hwritten, Nat.ofDigits_append, Nat.ofDigits_singleton, hlength, hlen, hsum, Nat.add_zero]
      have hrest : rest.length = b.length := by
        have := congrArg List.length hwritten
        simp only [List.length_append, List.length_cons, List.length_nil, hlength] at this
        omega
      obtain ⟨hlast, hdigits⟩ := List.forall_mem_cons.mp hdigits
      obtain ⟨ih, ihdigits⟩ := mulRows_spec hb xs rest hxs hdigits hrest
      refine ⟨?_, List.forall_mem_cons.mpr ⟨hlast, ihdigits⟩⟩
      rw [Nat.ofDigits_cons, Nat.ofDigits_cons, ih]
      linear_combination hvalue

/-! ### The obligation -/

/-- Settles O38: the rounds start from zeros, so R ends with the digits of the product, which stripping makes canonical. -/
theorem schoolbookEqualsMultiply : Obligations.SchoolbookEqualsMultiply := by
  intro a b _ _ ha hb
  have hzeros : zeros (a.length + b.length) = zeros b.length ++ zeros a.reverse.length := by
    rw [zeros, zeros, zeros, List.replicate_append_replicate, List.length_reverse, Nat.add_comm]
  have hdigits : ∀ {q : DigitSeq}, allDigits q = true → ∀ x ∈ q.reverse, x ≤ 9 := fun hq x hx =>
    allDigits_iff.mp hq x (List.mem_reverse.mp hx)
  obtain ⟨hvalue, hle⟩ := mulRows_spec (hdigits hb) a.reverse (zeros b.length) (hdigits ha)
    (by simp [zeros]) (by simp)
  rw [← hzeros] at hvalue hle
  have hzero : Nat.ofDigits 10 (zeros b.length) = 0 := by
    have hreverse : (zeros b.length).reverse = zeros b.length := List.reverse_replicate
    rw [← value_zeros b.length, value_eq_decimalValue, decimalValue, hreverse]
  rw [schoolbook, strip_eq_decimal fun x hx => hle x (List.mem_reverse.mp hx), multiply_eq_digitsOf, digitsOf_eq_decimal,
    value_eq_decimalValue a, value_eq_decimalValue b, decimalValue, List.reverse_reverse, hvalue, hzero, Nat.zero_add,
    decimalValue, decimalValue]

end Sys2Proof.Machine

/-! The long division (spec/43_divide_kernel.md R110, R111, R113, R114): when it raises E_RANGE, and the canonical quotient it
gives where it does not. -/

namespace Sys2Proof.Machine

/-! ### The remainders of a long division -/

/-- A remainder of the long division that goes on with the digits `n` after the remainder `r` exceeds 2^256 − 1. -/
def ExceedsFrom (d : Nat) : DigitSeq → Nat → Prop
  | [], _ => False
  | x :: xs, r => 2 ^ 256 ≤ r % d * 10 + x ∨ ExceedsFrom d xs (r % d * 10 + x)

/-- Going on after a number or after its remainder is the same. -/
theorem exceedsFrom_of_mod_eq {d r r' : Nat} (n : DigitSeq) (h : r % d = r' % d) : ExceedsFrom d n r ↔ ExceedsFrom d n r' := by
  cases n with
  | nil => rfl
  | cons x xs => rw [ExceedsFrom, ExceedsFrom, h]

theorem value_take_cons {x k : Nat} {xs : DigitSeq} (hk : k ≤ xs.length) :
    value ((x :: xs).take (k + 1)) = x * 10 ^ k + value (xs.take k) := by
  rw [List.take_succ_cons, value, List.length_take, Nat.min_eq_left hk]

/-- The remainder before digit k is what the digits before it leave, after the remainder that the division started with. -/
theorem exceedsFrom_iff {d : Nat} : ∀ {n : DigitSeq} {r : Nat}, ExceedsFrom d n r ↔
    ∃ k, k < n.length ∧ 2 ^ 256 ≤ (r * 10 ^ k + value (n.take k)) % d * 10 + n.getD k 0
  | [], r => by simp [ExceedsFrom]
  | x :: xs, r => by
    have hnext : ∀ k, k < xs.length → ((r % d * 10 + x) * 10 ^ k + value (xs.take k)) % d =
        (r * 10 ^ (k + 1) + value ((x :: xs).take (k + 1))) % d := by
      intro k hk
      have hr : r ≡ r % d [MOD d] := (Nat.mod_modEq r d).symm
      rw [value_take_cons hk.le]
      calc ((r % d * 10 + x) * 10 ^ k + value (xs.take k)) % d
          = (r % d * 10 ^ (k + 1) + (x * 10 ^ k + value (xs.take k))) % d := by rw [pow_succ]; ring_nf
        _ = (r * 10 ^ (k + 1) + (x * 10 ^ k + value (xs.take k))) % d := ((hr.mul_right _).add_right _).symm
    rw [ExceedsFrom, exceedsFrom_iff]
    constructor
    · rintro (hfirst | ⟨k, hk, hlater⟩)
      · exact ⟨0, Nat.succ_pos _, by simpa [value] using hfirst⟩
      · exact ⟨k + 1, Nat.succ_lt_succ hk, by rwa [← hnext k hk, List.getD_cons_succ]⟩
    · rintro ⟨k, hk, hexceeds⟩
      cases k with
      | zero => exact .inl (by simpa [value] using hexceeds)
      | succ k =>
        have hk := Nat.lt_of_succ_lt_succ hk
        exact .inr ⟨k, hk, by rwa [hnext k hk, ← List.getD_cons_succ]⟩

theorem remainderExceeds_iff (n : DigitSeq) (d : Nat) : RemainderExceeds n d ↔ ExceedsFrom d n 0 := by
  simp only [exceedsFrom_iff, Nat.zero_mul, Nat.zero_add, value_eq_decimalValue]
  rfl

/-! ### E_RANGE (R110) -/

theorem checkRange_of_lt {r : Nat} (h : r < 2 ^ 256) : checkRange r = .ok r :=
  checkRange_eq_ok.mpr ⟨rfl, Nat.le_sub_one_of_lt h⟩

theorem checkRange_of_le {r : Nat} (h : 2 ^ 256 ≤ r) : checkRange r = .error .range :=
  if_pos (Nat.lt_of_lt_of_le (by decide) h)

/-- The emit loop fails exactly when one of its remainders exceeds the range. -/
theorem divEmit_error_iff {d : Nat} : ∀ {n : DigitSeq} {r : Nat}, divEmit d n r = .error .range ↔ ExceedsFrom d n r
  | [], r => by simp [divEmit, ExceedsFrom]
  | x :: xs, r => by
    rw [divEmit, ExceedsFrom]
    obtain hlt | hle := Nat.lt_or_ge (r % d * 10 + x) (2 ^ 256)
    · rw [checkRange_of_lt hlt, or_iff_right (Nat.not_le.mpr hlt), ← divEmit_error_iff]
      cases h : divEmit d xs (r % d * 10 + x) <;> simp [bind, Except.bind, h]
    · rw [checkRange_of_le hle]
      exact iff_of_true rfl (.inl hle)

/-- The division after the seed loop: the emit loop on the digits that are left. -/
def divFrom (d : Nat) (n : DigitSeq) (r : Nat) : Except ErrCode DigitSeq :=
  (divSeed d n r).bind fun taken => divEmit d taken.2 taken.1

/-- The seed loop's remainders are those of the long division: up to the divisor a number is its own remainder. -/
theorem divFrom_error_iff {d : Nat} : ∀ {n : DigitSeq} {r : Nat}, divFrom d n r = .error .range ↔ ExceedsFrom d n r
  | [], r => divEmit_error_iff
  | x :: xs, r => by
    obtain hlt | hge := Nat.lt_or_ge r d
    · rw [divFrom, divSeed, if_pos hlt, ExceedsFrom, Nat.mod_eq_of_lt hlt]
      obtain hin | hout := Nat.lt_or_ge (r * 10 + x) (2 ^ 256)
      · rw [checkRange_of_lt hin, or_iff_right (Nat.not_le.mpr hin), ← divFrom_error_iff]
        rfl
      · rw [checkRange_of_le hout]
        exact iff_of_true rfl (.inl hout)
    · rw [divFrom, divSeed, if_neg (Nat.not_lt.mpr hge)]
      exact divEmit_error_iff

/-- The final emission leaves no empty quotient, so the division is its two loops. -/
theorem divide_eq_divFrom (n : DigitSeq) (d : Nat) : divide n d = divFrom d n 0 := by
  have hne : ∀ {m : DigitSeq} {r : Nat}, divEmit d m r ≠ .ok [] := by
    intro m r h
    cases m with
    | nil => cases h
    | cons x xs =>
      rw [divEmit] at h
      cases hc : checkRange (r % d * 10 + x) with
      | error e => rw [hc] at h; cases h
      | ok v =>
        rw [hc] at h
        cases hq : divEmit d xs v with
        | error e => simp [bind, Except.bind, hq] at h
        | ok q => simp [bind, Except.bind, hq] at h
  rw [divide, divFrom]
  cases divSeed d n 0 with
  | error e => rfl
  | ok taken =>
    obtain ⟨r, rest⟩ := taken
    cases hq : divEmit d rest r with
    | error e => simp [bind, Except.bind, hq]
    | ok q =>
      have hq' : q ≠ [] := fun h => hne (h ▸ hq)
      simp [bind, Except.bind, hq, hq']

/-- R110: the division fails exactly when a remainder exceeds the range. -/
theorem divide_error_iff {n : DigitSeq} {d : Nat} : divide n d = .error .range ↔ RemainderExceeds n d := by
  rw [divide_eq_divFrom, divFrom_error_iff, remainderExceeds_iff]

theorem exists_divide_ok {n : DigitSeq} {d : Nat} (h : ¬RemainderExceeds n d) : ∃ q, divide n d = .ok q := by
  cases hq : divide n d with
  | ok q => exact ⟨q, rfl⟩
  | error e =>
    rw [divide_eq_error hq] at hq
    exact absurd (divide_error_iff.mp hq) h

/-- A remainder is below the divisor, so up to a tenth of the range no remainder exceeds it (R114). -/
theorem not_remainderExceeds_of_le {n : DigitSeq} {d : Nat} (hn : allDigits n = true) (hd : 1 ≤ d) (hle : d * 10 ≤ 2 ^ 256) :
    ¬RemainderExceeds n d := by
  rintro ⟨k, hk, hexceeds⟩
  have hrem : decimalValue (n.take k) % d < d := Nat.mod_lt _ hd
  have hdigit : n.getD k 0 ≤ 9 := by
    rw [List.getD_eq_getElem _ _ hk]
    exact allDigits_iff.mp hn _ (List.getElem_mem hk)
  omega

/-! ### The quotient (R111, R113) -/

/-- A remainder and one more digit stay below ten times the divisor. -/
theorem mod_mul_ten_add_lt {d r x : Nat} (hd : 1 ≤ d) (hx : x ≤ 9) : r % d * 10 + x < d * 10 := by
  have := Nat.mod_lt r hd
  omega

/-- The seed loop stops below ten times the divisor: it takes a digit only below the divisor. -/
theorem divSeed_lt {d : Nat} : ∀ {n : DigitSeq} {r r' : Nat} {rest : DigitSeq}, (∀ x ∈ n, x ≤ 9) → r < d * 10 →
    divSeed d n r = .ok (r', rest) → r' < d * 10 ∧ ∀ x ∈ rest, x ≤ 9
  | [], r, r', rest, _, hr, h => by
    cases h
    exact ⟨hr, by simp⟩
  | x :: xs, r, r', rest, hn, hr, h => by
    obtain ⟨hx, hxs⟩ := List.forall_mem_cons.mp hn
    rw [divSeed] at h
    split_ifs at h with hlt
    · cases hc : checkRange (r * 10 + x) with
      | error e => rw [hc] at h; cases h
      | ok v =>
        rw [hc] at h
        obtain ⟨rfl, -⟩ := checkRange_eq_ok.mp hc
        exact divSeed_lt hxs (by omega) h
    · cases h
      exact ⟨hr, hn⟩

/-- The emit loop emits the quotient of its remainder first, and only digits. -/
theorem divEmit_digits {d : Nat} (hd : 1 ≤ d) : ∀ {n : DigitSeq} {r : Nat} {q : DigitSeq}, (∀ x ∈ n, x ≤ 9) → r < d * 10 →
    divEmit d n r = .ok q → ∃ tail, q = r / d :: tail ∧ ∀ y ∈ q, y ≤ 9
  | [], r, q, _, hr, h => by
    cases h
    have := Nat.div_lt_of_lt_mul hr
    exact ⟨[], rfl, List.forall_mem_singleton.mpr (by omega)⟩
  | x :: xs, r, q, hn, hr, h => by
    obtain ⟨hx, hxs⟩ := List.forall_mem_cons.mp hn
    rw [divEmit] at h
    cases hc : checkRange (r % d * 10 + x) with
    | error e => rw [hc] at h; cases h
    | ok v =>
      rw [hc] at h
      obtain ⟨rfl, -⟩ := checkRange_eq_ok.mp hc
      cases hq : divEmit d xs (r % d * 10 + x) with
      | error e => simp [bind, Except.bind, hq] at h
      | ok q' =>
        simp only [bind, Except.bind, hq, Except.ok.injEq] at h
        obtain ⟨-, -, hdigits⟩ := divEmit_digits hd hxs (mod_mul_ten_add_lt hd hx) hq
        have := Nat.div_lt_of_lt_mul hr
        exact ⟨q', h.symm, h ▸ List.forall_mem_cons.mpr ⟨by omega, hdigits⟩⟩

/-- A single digit is its own canonical sequence. -/
theorem digitsOf_of_le_nine {x : Nat} (h : x ≤ 9) : digitsOf x = [x] := by
  obtain rfl | hx := Nat.eq_zero_or_pos x
  · rfl
  · have hcons := decimal_decimalValue_cons (q := []) hx.ne' (List.forall_mem_singleton.mpr h)
    rw [← value_eq_decimalValue] at hcons
    rw [digitsOf_eq_decimal, ← hcons]
    simp [value]

/-- R113: the division gives the canonical sequence of the truncated quotient. Its digits are below ten because remainders
are below the divisor, and it starts with 0 only where the seed loop took every digit. -/
theorem divide_eq_digitsOf {n : DigitSeq} {d : Nat} {q : DigitSeq} (hn : allDigits n = true) (hd : 1 ≤ d)
    (h : divide n d = .ok q) : q = digitsOf (value n / d) := by
  rw [divide_eq_divFrom, divFrom] at h
  cases hseed : divSeed d n 0 with
  | error e => rw [hseed] at h; cases h
  | ok taken =>
    obtain ⟨r, rest⟩ := taken
    rw [hseed] at h
    have hemit : divEmit d rest r = .ok q := h
    obtain ⟨hkept, hstop, -⟩ := divSeed_spec hseed
    obtain ⟨hr, hrest⟩ := divSeed_lt (allDigits_iff.mp hn) (by omega) hseed
    obtain ⟨hvalue, -⟩ := divEmit_spec hd hemit
    obtain ⟨tail, htail, hdigits⟩ := divEmit_digits hd hrest hr hemit
    rw [hkept, Nat.zero_mul, Nat.zero_add] at hvalue
    rw [← hvalue]
    obtain rfl | hge := hstop
    · cases hemit
      have hfirst : r / d ≤ 9 := hdigits _ List.mem_cons_self
      simp [value, digitsOf_of_le_nine hfirst]
    · have hfirst : r / d ≠ 0 := (Nat.div_pos hge hd).ne'
      rw [htail, digitsOf_eq_decimal, value_eq_decimalValue, decimal_decimalValue_cons hfirst (htail ▸ hdigits)]

/-! ### The obligations -/

/-- Settles O40: the emitted digits denote the quotient, are below ten, and do not start with 0 but for a single digit. -/
theorem divideIsExactQuotient : Obligations.DivideIsExactQuotient :=
  fun _ _ _ hn hd _ h => divide_eq_digitsOf hn hd h

/-- Settles O41: both loops check the remainders of the long division, and nothing else can fail. -/
theorem divideRangeExactly : Obligations.DivideRangeExactly := by
  intro n d hn hd _
  exact ⟨divide_error_iff.mpr, exists_divide_ok,
    fun hle => exists_divide_ok (not_remainderExceeds_of_le hn hd (by omega))⟩

end Sys2Proof.Machine

/-! The unit commands (spec/40_digit_conversion.md R80, R82; spec/41_scale_align.md R91, R94; spec/42_multiply_kernel.md R101;
spec/43_divide_kernel.md R112): what each writes, and where it fails. -/

namespace Sys2Proof.Machine

/-! ### Completion without error (R35) -/

/-- A command whose computation gives a sequence of at most 256 digits writes it. -/
theorem exec_wroteDigits {i : Instr} {s : State} {rd : DIdx} {q : DigitSeq}
    (h : commandResult i s.sources = .ok (.digits rd q)) (hlen : q.length ≤ 256) (hdigits : ∀ x ∈ q, x ≤ 9) :
    ∃ t, exec i s = .next t ∧ WroteDigits s t rd q := by
  refine ⟨_, exec_eq_complete i s, ?_⟩
  rw [h, State.complete_ok]
  exact wroteDigits_completeOk s rd q hlen fun x hx => (hdigits x hx).trans (by decide)

/-- A command whose computation has no destination writes nothing. -/
theorem exec_wroteNothing {i : Instr} {s : State} (h : commandResult i s.sources = .ok .none) :
    ∃ t, exec i s = .next t ∧ WroteNothing s t := by
  refine ⟨_, exec_eq_complete i s, ?_⟩
  rw [h, State.complete_ok]
  exact wroteNothing_completeOk s

/-! ### Lengths and digits -/

/-- The decimal sequence of x is too long exactly when x is at least 10^256. -/
theorem capacity_lt_length_decimal_iff (x : Nat) : (decimal x).length > Config.dcap ↔ 10 ^ 256 ≤ x := by
  rw [← not_iff_not, Nat.not_le]
  exact Nat.not_lt.trans (length_decimal_le_iff x 256 (by decide))

/-- A readable source has a value below 10^256. -/
theorem decimalValue_lt_of_source {r : DigitReg} {q : DigitSeq} (h : r.Source q) : decimalValue q < 10 ^ 256 := by
  obtain ⟨-, hlen, hdigits⟩ := h
  rw [← value_eq_decimalValue]
  exact (value_lt q (allDigits_iff.mpr hdigits)).trans_le (Nat.pow_le_pow_right (by decide) hlen)

theorem allDigits_of_source {r : DigitReg} {q : DigitSeq} : r.Source q → allDigits q = true :=
  fun ⟨_, _, hdigits⟩ => allDigits_iff.mpr hdigits

/-- Alignment keeps digits digits. -/
theorem le_nine_of_mem_align {q : DigitSeq} (hq : ∀ x ∈ q, x ≤ 9) (src tgt : Nat) : ∀ x ∈ align q src tgt, x ≤ 9 := by
  have hzeros : ∀ k, ∀ x ∈ zeros k, x ≤ 9 := fun k x hx => by
    rw [List.eq_of_mem_replicate hx]
    decide
  unfold align
  split_ifs
  · exact List.forall_mem_append.mpr ⟨hq, hzeros _⟩
  · exact List.forall_mem_singleton.mpr (by decide)
  · exact fun x hx => hq x (List.mem_of_mem_take hx)
  · exact hq

/-! ### DMUL and DDIV -/

/-- DMUL of readable sources answers the decimal digits of the product, or E_CAP where it has more than 256 (R101). -/
theorem commandResult_dmul {src : Sources} {rd ra rb : DIdx} {a b : DigitSeq} (ha : src.d[ra].Source a)
    (hb : src.d[rb].Source b) :
    commandResult (.dmul rd ra rb) src =
      if 10 ^ 256 ≤ decimalValue a * decimalValue b then .error .cap
      else .ok (.digits rd (decimal (decimalValue a * decimalValue b))) := by
  rw [commandResult, dmulResult_of_read rd (DigitReg.read_of_source ha) (DigitReg.read_of_source hb), multiply_eq_digitsOf,
    digitsOf_eq_decimal, value_eq_decimalValue, value_eq_decimalValue]
  exact if_congr (capacity_lt_length_decimal_iff _) rfl rfl

/-- DDIV of a readable source answers what the division by a divisor other than 0 answers (R112). -/
theorem commandResult_ddiv {src : Sources} {rd ra : DIdx} {rb : MIdx} {n : DigitSeq} (hsource : src.d[ra].Source n) :
    commandResult (.ddiv rd ra rb) src =
      if src.m[rb].toNat = 0 then .error .divzero else (divide n src.m[rb].toNat).map (.digits rd) :=
  ddivResult_of_read rd rb (DigitReg.read_of_source hsource)

/-- Where no remainder exceeds the range the division gives the decimal digits of the quotient (R113). -/
theorem divide_of_not_exceeds {n : DigitSeq} {d : Nat} (hn : allDigits n = true) (hd : 1 ≤ d)
    (h : ¬RemainderExceeds n d) : divide n d = .ok (decimal (value n / d)) := by
  obtain ⟨q, hq⟩ := exists_divide_ok h
  rw [hq, divide_eq_digitsOf hn hd hq, digitsOf_eq_decimal]

/-! ### DALIGN -/

/-- DALIGN of a readable source whose alignment fits the capacity answers the alignment (R91). -/
theorem commandResult_dalign {src : Sources} {ra : DIdx} {q : DigitSeq} (rd : DIdx) (x y : Nat) (hsource : src.d[ra].Source q)
    (hfits : (align q x y).length ≤ 256) : commandResult (.dalign rd ra x y) src = .ok (.digits rd (align q x y)) :=
  (dalignResult_of_read rd x y (DigitReg.read_of_source hsource)).trans (if_neg (Nat.not_lt.mpr hfits))

/-! ### The obligations -/

/-- Settles O18: TODIG has no error, and a 256-bit number has at most 78 digits. -/
theorem todigWritesDecimalDigits : Obligations.TodigWritesDecimalDigits := by
  intro rd ra s
  obtain ⟨t, hexec, hwrote⟩ := exec_todig_wroteDigits s rd ra
  exact ⟨t, hexec, hwrote, length_decimal_toNat_le _⟩

/-- Settles O19: FROMDIG checks the value of the sequence it read against the range. -/
theorem fromdigWritesValue : Obligations.FromdigWritesValue := by
  intro rd ra s q hsource
  refine ⟨exec_fromdig_wroteMag s rd ra hsource, fun hlarge => exec_completedError ?range⟩
  case range =>
    rw [← value_eq_decimalValue] at hlarge
    rw [commandResult, fromdigResult_of_read rd (DigitReg.read_of_source hsource)]
    exact if_pos (Nat.lt_of_lt_of_le (by decide) hlarge)

/-- Settles O20: the product's canonical sequence has more than 256 digits exactly from 10^256 on. -/
theorem dmulWritesProduct : Obligations.DmulWritesProduct := by
  intro rd ra rb s a b ha hb
  have hresult := commandResult_dmul (rd := rd) ha hb
  refine ⟨fun hsmall => ?product, fun hlarge => exec_completedError (hresult.trans (if_pos hlarge))⟩
  case product =>
    exact exec_wroteDigits (hresult.trans (if_neg (Nat.not_le.mpr hsmall)))
      ((length_decimal_le_iff _ 256 (by decide)).mpr hsmall) fun x hx => le_nine_of_mem_decimal hx

/-- Settles O21: the divisor is not 0, so the result is the division's; a quotient is no longer than 256 digits because it
is at most the dividend. -/
theorem ddivWritesQuotient : Obligations.DdivWritesQuotient := by
  intro rd ra rb s n hsource hdivisor
  have hd : s.sources.m[rb].toNat ≠ 0 := fun h => hdivisor (BitVec.eq_of_toNat_eq h)
  have hresult := (commandResult_ddiv (rd := rd) (rb := rb) hsource).trans (if_neg hd)
  refine ⟨fun hfits => ?quotient, fun hexceeds => exec_completedError ?range⟩
  case quotient =>
    rw [divide_of_not_exceeds (allDigits_of_source hsource) (Nat.pos_of_ne_zero hd) hfits, value_eq_decimalValue] at hresult
    have hlt := (Nat.div_le_self (decimalValue n) s.sources.m[rb].toNat).trans_lt (decimalValue_lt_of_source hsource)
    exact exec_wroteDigits hresult ((length_decimal_le_iff _ 256 (by decide)).mpr hlt) fun x hx => le_nine_of_mem_decimal hx
  case range =>
    rw [hresult, divide_error_iff.mpr hexceeds]
    rfl

/-- Settles O22: in each branch of `align` its length is that of the padded or of the truncated source. -/
theorem dalignWritesAlignment : Obligations.DalignWritesAlignment := by
  intro rd ra src tgt s q hsource
  have hresult := dalignResult_of_read rd src tgt (DigitReg.read_of_source hsource)
  have ⟨_, hlen, hdigits⟩ := hsource
  have hwrite : (align q src tgt).length ≤ 256 →
      ∃ t, exec (.dalign rd ra src tgt) s = .next t ∧ WroteDigits s t rd (align q src tgt) := fun hfits =>
    exec_wroteDigits (commandResult_dalign rd src tgt hsource hfits) hfits (le_nine_of_mem_align hdigits src tgt)
  refine ⟨fun hle hfits => ?pad, fun hle hlong => exec_completedError (hresult.trans (if_pos ?long)), fun hlt hkept => ?truncate,
    fun hlt hgone => ?nothing⟩
  case pad =>
    rw [align_of_le q hle] at hwrite
    exact hwrite (by simpa using hfits)
  case long =>
    rw [length_align, if_pos hle]
    exact hlong
  case truncate =>
    rw [align_of_lt_length hlt hkept] at hwrite
    exact hwrite ((List.length_take_le' _ _).trans hlen)
  case nothing =>
    rw [align_of_length_le hlt hgone] at hwrite
    exact hwrite (by decide)

/-- Settles O23: the guard compares the length of the sequence it read with 76. -/
theorem ovchkGuardsLength : Obligations.OvchkGuardsLength := by
  intro ra s q hsource
  have hresult := ovchkResult_of_read (DigitReg.read_of_source hsource)
  refine ⟨fun hfits => exec_wroteNothing (hresult.trans (if_neg ?fits)),
    fun hlong => exec_completedError (hresult.trans (if_pos (decide_eq_true hlong)))⟩
  case fits =>
    rw [overflows, decide_eq_true_eq]
    exact Nat.not_lt.mpr hfits

end Sys2Proof.Machine

/-! The composite commands (spec/44_transforms.md R132 to R134, R140 to R150): the length and the value of the sequences they
build, and the signed result. -/

namespace Sys2Proof.Machine

/-! ### The signed result (R132 to R134) -/

theorem wroteDecimal_completeOk (s : State) (rd : MIdx) (v : Mag) {rs : Nat} (h : rs ≤ 76) :
    WroteDecimal s (s.completeOk (.decimal rd v rs)) rd v.toInt rs := by
  refine ⟨completedOk_completeOk s _, keepsControl_complete s (.ok (.decimal rd v rs)), rfl, toNat_keepLow_eight h, ?_, ?_⟩
  · exact fun k hk => Vector.getElem_set_ne rd.isLt k.isLt fun heq => hk (Fin.ext heq.symm)
  · exact congrArg BitVec.toInt (Vector.getElem_set_self rd.isLt)

/-- A command whose computation gives a signed number at a legal scale writes both. -/
theorem exec_wroteDecimal {i : Instr} {s : State} {rd : MIdx} {v : Mag} {rs : Nat}
    (h : commandResult i s.sources = .ok (.decimal rd v rs)) (hrs : rs ≤ 76) :
    ∃ t, exec i s = .next t ∧ WroteDecimal s t rd v.toInt rs := by
  refine ⟨_, exec_eq_complete i s, ?_⟩
  rw [h, State.complete_ok]
  exact wroteDecimal_completeOk s rd v hrs

theorem Operands.sign_cases (o : Operands) : o.sign = -1 ∨ o.sign = 0 ∨ o.sign = 1 := by
  obtain ha | ha | ha := Int.sign_trichotomy o.a <;> obtain hb | hb | hb := Int.sign_trichotomy o.b <;>
    simp [Operands.sign, ha, hb]

/-- A magnitude of at most 76 digits fits the signed range, so reassembly is exact (R134). -/
theorem Operands.toInt_reassemble (o : Operands) {q : DigitSeq} (h : value q < 10 ^ 76) :
    (o.reassemble q).toInt = o.sign * (value q : Int) := by
  obtain ⟨hlow, hhigh⟩ : -2 ^ 255 ≤ o.sign * (value q : Int) ∧ o.sign * (value q : Int) < 2 ^ 255 := by
    obtain hs | hs | hs := o.sign_cases <;> rw [hs] <;> omega
  exact BitVec.toInt_ofInt_eq_self (by decide) hlow hhigh

theorem overflows_iff {q : DigitSeq} : overflows q = true ↔ 76 < q.length := decide_eq_true_iff

/-! ### The aligned product (R140, R142, R144) -/

theorem mulScratch_p (o : Operands) (rs : Nat) : (mulScratch o rs).p = decimal (o.a.natAbs * o.b.natAbs) := by
  change multiply (digitsOf o.a.natAbs) (digitsOf o.b.natAbs) = _
  rw [multiply_eq_digitsOf, value_digitsOf, value_digitsOf, digitsOf_eq_decimal]

theorem mulScratch_p2 (o : Operands) (rs : Nat) :
    (mulScratch o rs).p2 = align (decimal (o.a.natAbs * o.b.natAbs)) (o.sA + o.sB) rs := by
  rw [← mulScratch_p o rs]
  rfl

theorem allDigits_decimal (x : Nat) : allDigits (decimal x) = true :=
  allDigits_iff.mpr fun _ hy => le_nine_of_mem_decimal hy

@[simp] theorem value_decimal (x : Nat) : value (decimal x) = x := by
  rw [value_eq_decimalValue, decimalValue_decimal]

/-- The aligned product denotes the magnitude of R142. -/
theorem value_mulScratch_p2 (o : Operands) (rs : Nat) :
    value (mulScratch o rs).p2 = mulMagnitude o.a o.b o.sA o.sB rs := by
  obtain ⟨hpad, htruncate⟩ := alignmentValueLaw (decimal (o.a.natAbs * o.b.natAbs)) (o.sA + o.sB) rs (allDigits_decimal _)
  rw [value_decimal] at hpad htruncate
  rw [mulScratch_p2, mulMagnitude]
  split
  case isTrue hle => exact hpad hle
  case isFalse hlt => exact htruncate (Nat.not_le.mp hlt)

/-- The aligned product has at most 76 digits exactly when its magnitude is below 10^76, but for a zero product padded with
76 zeros, whose own zero is a digit too (R144). -/
theorem length_mulScratch_p2_le_iff (o : Operands) {rs : Nat} (hrs : rs ≤ 76) :
    (mulScratch o rs).p2.length ≤ 76 ↔
      mulMagnitude o.a o.b o.sA o.sB rs < 10 ^ 76 ∧ ¬(o.a * o.b = 0 ∧ o.sA = 0 ∧ o.sB = 0 ∧ rs = 76) := by
  have hzero : o.a * o.b = 0 ↔ o.a.natAbs * o.b.natAbs = 0 := by rw [← Int.natAbs_mul, Int.natAbs_eq_zero]
  rw [mulScratch_p2, length_align, mulMagnitude, hzero]
  generalize o.a.natAbs * o.b.natAbs = p
  split
  case isTrue hle =>
    obtain ⟨k, rfl⟩ := Nat.exists_eq_add_of_le hle
    rw [Nat.add_sub_cancel_left]
    obtain hk | hk := Nat.lt_or_ge k 76
    · have hpow : 10 ^ 76 = 10 ^ (76 - k) * 10 ^ k := by rw [← pow_add, Nat.sub_add_cancel hk.le]
      have hspecial : ¬(p = 0 ∧ o.sA = 0 ∧ o.sB = 0 ∧ o.sA + o.sB + k = 76) := by omega
      rw [and_iff_left hspecial, hpow, Nat.mul_lt_mul_right (by positivity), ← length_decimal_le_iff p _ (by omega)]
      omega
    · obtain rfl : k = 76 := by omega
      have hlength : 0 < (decimal p).length := List.length_pos_iff.mpr (decimal_ne_nil p)
      constructor <;> omega
  case isFalse hlt =>
    have hspecial : ¬(p = 0 ∧ o.sA = 0 ∧ o.sB = 0 ∧ rs = 76) := by omega
    have hpow : 10 ^ 76 * 10 ^ (o.sA + o.sB - rs) = 10 ^ (76 + (o.sA + o.sB - rs)) := (pow_add _ _ _).symm
    rw [and_iff_left hspecial, Nat.div_lt_iff_lt_mul (by positivity), hpow, ← length_decimal_le_iff p _ (by omega)]
    omega

/-- What the Multiply Transform answers at a legal result scale. -/
theorem mulLaw_of_result {i : Instr} {s : State} {rd ra rb : MIdx} {x : Option Nat} {rs : Nat} {o : Operands}
    (hi : commandResult i s.sources = muldecResult s.sources rd ra rb x) (ho : s.sources.operands ra rb = o)
    (hscale : o.resultScale x = .ok rs) :
    MulLaw (exec i s) s rd o.a o.b o.sA o.sB rs := by
  obtain ⟨-, -, hrs, -⟩ := Operands.resultScale_eq_ok.mp hscale
  have hlength := length_mulScratch_p2_le_iff o hrs
  have hvalue := value_mulScratch_p2 o rs
  rw [muldecResult_of_scale (by rwa [ho]), ho] at hi
  unfold MulLaw
  split
  case isTrue hfits =>
    have hguard : ¬overflows (mulScratch o rs).p2 = true := by
      rw [overflows_iff]
      exact Nat.not_lt.mpr (hlength.mpr hfits)
    rw [if_neg hguard] at hi
    obtain ⟨t, hexec, hwrote⟩ := exec_wroteDecimal hi hrs
    rw [Operands.toInt_reassemble _ (hvalue ▸ hfits.1), hvalue] at hwrote
    exact ⟨t, hexec, hwrote⟩
  case isFalse hover =>
    have hguard : overflows (mulScratch o rs).p2 = true := by
      rw [overflows_iff]
      exact Nat.not_le.mp fun h => hover (hlength.mp h)
    rw [if_pos hguard] at hi
    exact exec_completedError hi

/-! ### The padded quotient (R145 to R148) -/

theorem padDiv_eq_divPadding (sA sB rs : Nat) : padDiv sA sB rs = divPadding sA sB rs := by
  unfold padDiv divPadding
  split <;> omega

theorem divNumerator_eq (o : Operands) (rs : Nat) :
    divNumerator o rs = decimal o.a.natAbs ++ zeros (divPadding o.sA o.sB rs) := by
  rw [divNumerator, align_of_le _ (Nat.zero_le _), Nat.sub_zero, digitsOf_eq_decimal, padDiv_eq_divPadding]

theorem allDigits_divNumerator (o : Operands) (rs : Nat) : allDigits (divNumerator o rs) = true := by
  rw [allDigits_iff, divNumerator, digitsOf_eq_decimal]
  exact le_nine_of_mem_align (fun _ hy => le_nine_of_mem_decimal hy) _ _

theorem value_divNumerator (o : Operands) (rs : Nat) :
    value (divNumerator o rs) = o.a.natAbs * 10 ^ divPadding o.sA o.sB rs := by
  rw [divNumerator_eq, value_append, value_zeros, length_zeros, value_decimal, Nat.add_zero]

/-- What the Divide Transform answers at a legal result scale and a divisor other than 0. -/
theorem divLaw_of_result {i : Instr} {s : State} {rd ra rb : MIdx} {x : Option Nat} {rs : Nat} {o : Operands}
    (hi : commandResult i s.sources = divdecResult s.sources rd ra rb x) (ho : s.sources.operands ra rb = o)
    (hscale : o.resultScale x = .ok rs) (hb : o.b ≠ 0) :
    DivLaw (exec i s) s rd o.a o.b o.sA o.sB rs := by
  obtain ⟨-, -, hrs, -⟩ := Operands.resultScale_eq_ok.mp hscale
  have hd : 1 ≤ o.b.natAbs := Nat.pos_of_ne_zero (Int.natAbs_ne_zero.mpr hb)
  rw [divdecResult_of_scale (by rwa [ho]), ho, if_neg hb] at hi
  have hquotient : ¬RemainderExceeds (divNumerator o rs) o.b.natAbs → divide (divNumerator o rs) o.b.natAbs =
      .ok (decimal (o.a.natAbs * 10 ^ divPadding o.sA o.sB rs / o.b.natAbs)) := by
    rw [← value_divNumerator]
    exact divide_of_not_exceeds (allDigits_divNumerator _ rs) hd
  have hrange := divide_error_iff (n := divNumerator o rs) (d := o.b.natAbs)
  rw [divNumerator_eq] at hi hquotient hrange
  refine ⟨fun hexceeds => exec_completedError ?range, fun hfits hsmall => ?quotient,
    fun hfits hlarge => exec_completedError ?overflow⟩
  case range =>
    rw [hi, hrange.mpr hexceeds]
    rfl
  case quotient =>
    rw [hquotient hfits] at hi
    have hguard := mt overflows_iff.mp (Nat.not_lt.mpr ((length_decimal_le_iff _ 76 (by decide)).mpr hsmall))
    obtain ⟨t, hexec, hwrote⟩ := exec_wroteDecimal (hi.trans (if_neg hguard)) hrs
    rw [Operands.toInt_reassemble _ (by rwa [value_decimal]), value_decimal] at hwrote
    exact ⟨t, hexec, hwrote⟩
  case overflow =>
    rw [hquotient hfits] at hi
    have hlong := mt (length_decimal_le_iff _ 76 (by decide)).mp (Nat.not_lt.mpr hlarge)
    exact hi.trans (if_pos (overflows_iff.mpr (Nat.not_le.mp hlong)))

/-! ### The capacity (R150) -/

/-- The magnitude of a 256-bit operand has at most 77 digits. -/
theorem natAbs_toInt_lt (x : Mag) : x.toInt.natAbs < 10 ^ 77 := by
  have hlt : x.toInt < 2 ^ 255 := x.toInt_lt
  have hle : -2 ^ 255 ≤ x.toInt := x.le_toInt
  omega

theorem divPadding_le {sA sB rs : Nat} (hB : sB ≤ 76) (hrs : rs ≤ 76) : divPadding sA sB rs ≤ 152 := by
  unfold divPadding
  split <;> omega

/-- With divisor 0 the emit loop keeps the whole number as its remainder, so it succeeds only within the range, with one
digit more than it took. -/
theorem divEmit_zero {n : DigitSeq} : ∀ {r : Nat} {q : DigitSeq}, r ≤ Config.magMax → divEmit 0 n r = .ok q →
    q.length = n.length + 1 ∧ r * 10 ^ n.length + value n ≤ Config.magMax := by
  induction n with
  | nil =>
    intro r q hr h
    cases h
    simpa [value] using hr
  | cons x xs ih =>
    intro r q _ h
    rw [divEmit, Nat.mod_zero] at h
    cases hc : checkRange (r * 10 + x) with
    | error e => rw [hc] at h; cases h
    | ok v =>
      rw [hc] at h
      obtain ⟨rfl, hle⟩ := checkRange_eq_ok.mp hc
      cases hq : divEmit 0 xs (r * 10 + x) with
      | error e => simp [bind, Except.bind, hq] at h
      | ok q' =>
        simp only [bind, Except.bind, hq, Except.ok.injEq] at h
        obtain ⟨hlength, hvalue⟩ := ih hle hq
        refine ⟨by rw [← h, List.length_cons, hlength, List.length_cons], ?_⟩
        calc r * 10 ^ (x :: xs).length + value (x :: xs)
            = (r * 10 + x) * 10 ^ xs.length + value xs := by rw [value, List.length_cons, pow_succ]; ring
          _ ≤ Config.magMax := hvalue

/-- Where the division by 0 answers, the dividend is within the range, and the answer has one digit more. -/
theorem divide_zero {n q : DigitSeq} (h : divide n 0 = .ok q) : q.length = n.length + 1 ∧ value n ≤ Config.magMax := by
  have hseed : divSeed 0 n 0 = .ok (0, n) := by cases n <;> rfl
  rw [divide_eq_divFrom, divFrom, hseed] at h
  obtain ⟨hlength, hvalue⟩ := divEmit_zero (Nat.zero_le _) h
  exact ⟨hlength, by simpa using hvalue⟩

/-- A padded dividend within the range has at most 153 digits: the padding's own length and one digit for a dividend of 0,
else no more than 78. -/
theorem length_decimal_append_zeros_le {x k : Nat} (hk : k ≤ 152) (h : x * 10 ^ k ≤ Config.magMax) :
    (decimal x ++ zeros k).length ≤ 153 := by
  rw [List.length_append, length_zeros]
  obtain rfl | hx := Nat.eq_zero_or_pos x
  · change 1 + k ≤ 153
    omega
  · have hlt : x * 10 ^ k < 10 ^ 78 := h.trans_lt (by decide)
    have hk78 : k < 78 := by
      by_contra hge
      have := Nat.pow_le_pow_right (show 0 < 10 by decide) (Nat.not_lt.mp hge)
      have := Nat.le_mul_of_pos_left (10 ^ k) hx
      omega
    have hpow : 10 ^ 78 = 10 ^ (78 - k) * 10 ^ k := by rw [← pow_add, Nat.sub_add_cancel hk78.le]
    rw [hpow, Nat.mul_lt_mul_right (by positivity), ← length_decimal_le_iff x _ (by omega)] at hlt
    omega

/-- A quotient by a divisor other than 0 is no longer than its dividend. -/
theorem length_le_of_divide {n q : DigitSeq} {d : Nat} (hn : allDigits n = true) (hne : 1 ≤ n.length) (hd : 1 ≤ d)
    (h : divide n d = .ok q) : q.length ≤ n.length := by
  rw [divide_eq_digitsOf hn hd h, digitsOf_eq_decimal, length_decimal_le_iff _ _ hne]
  exact (Nat.div_le_self _ _).trans_lt (value_lt n hn)

/-! ### The obligations -/

/-- Settles O29: at legal scales the result scale is the form's, and the answer is that of the Multiply Transform. -/
theorem muldecWritesProduct : Obligations.MuldecWritesProduct := by
  intro s rd ra rb sA sB hsA hsB hA hB
  rw [← scaleA_eq] at hsA
  rw [← scaleB_eq] at hsB
  subst hsA hsB
  refine ⟨fun rs hrs => ?explicit, ?default⟩
  case explicit =>
    exact mulLaw_of_result (ra := ra) (rb := rb) (o := s.sources.operands ra rb) rfl rfl
      (Operands.resultScale_eq_ok.mpr ⟨hA, hB, hrs, rfl⟩)
  case default =>
    exact mulLaw_of_result (ra := ra) (rb := rb) (o := s.sources.operands ra rb) rfl rfl
      (Operands.resultScale_eq_ok.mpr ⟨hA, hB, max_le hA hB, rfl⟩)

/-- Settles O30: at legal scales and a divisor other than 0 the answer is that of the Divide Transform. -/
theorem divdecWritesQuotient : Obligations.DivdecWritesQuotient := by
  intro s rd ra rb sA sB hsA hsB hA hB hdivisor
  rw [← scaleA_eq] at hsA
  rw [← scaleB_eq] at hsB
  subst hsA hsB
  have hb : s.sources.m[rb].toInt ≠ 0 := fun h => hdivisor (BitVec.eq_of_toInt_eq (h.trans BitVec.toInt_zero.symm))
  refine ⟨fun rs hrs => ?explicit, ?default⟩
  case explicit =>
    exact divLaw_of_result (ra := ra) (rb := rb) (o := s.sources.operands ra rb) rfl rfl
      (Operands.resultScale_eq_ok.mpr ⟨hA, hB, hrs, rfl⟩) hb
  case default =>
    exact divLaw_of_result (ra := ra) (rb := rb) (o := s.sources.operands ra rb) rfl rfl
      (Operands.resultScale_eq_ok.mpr ⟨hA, hB, max_le hA hB, rfl⟩) hb

/-- Settles O31: operands have at most 77 digits, a product as many as its factors together, and scales add at most 76 or
152 zeros; a quotient is no longer than its dividend, but by one digit for a divisor of 0. -/
theorem compositeCapacity : Obligations.CompositeCapacity := by
  intro src ra rb rs hA hB hrs
  have hoperand : ∀ x : Mag, (decimal x.toInt.natAbs).length ≤ 77 := fun x =>
    (length_decimal_le_iff _ 77 (by decide)).mpr (natAbs_toInt_lt x)
  have hproduct : (mulScratch (src.operands ra rb) rs).p.length ≤ 154 := by
    have hpow : 10 ^ 154 = 10 ^ 77 * 10 ^ 77 := pow_add 10 77 77
    rw [mulScratch_p, length_decimal_le_iff _ 154 (by decide), hpow]
    exact Nat.mul_lt_mul'' (natAbs_toInt_lt src.m[ra]) (natAbs_toInt_lt src.m[rb])
  have hpadding := divPadding_le (sA := (src.operands ra rb).sA) hB hrs
  have hnumerator : (divNumerator (src.operands ra rb) rs).length ≤ 229 := by
    have := hoperand src.m[ra]
    rw [divNumerator_eq, List.length_append, length_zeros]
    change (decimal src.m[ra].toInt.natAbs).length + _ ≤ 229
    omega
  refine ⟨?dA, ?dB, hproduct, ?aligned, hnumerator, fun q hq => ?quotient⟩
  case dA =>
    change (digitsOf src.m[ra].toInt.natAbs).length ≤ 77
    rw [digitsOf_eq_decimal]
    exact hoperand src.m[ra]
  case dB =>
    change (digitsOf src.m[rb].toInt.natAbs).length ≤ 77
    rw [digitsOf_eq_decimal]
    exact hoperand src.m[rb]
  case aligned =>
    rw [mulScratch_p] at hproduct
    rw [mulScratch_p2, length_align]
    split <;> omega
  case quotient =>
    obtain hzero | hpos := Nat.eq_zero_or_pos (src.operands ra rb).b.natAbs
    · rw [hzero] at hq
      obtain ⟨hlength, hvalue⟩ := divide_zero hq
      rw [value_divNumerator] at hvalue
      have := length_decimal_append_zeros_le hpadding hvalue
      rw [← divNumerator_eq] at this
      omega
    · have hne : 1 ≤ (divNumerator (src.operands ra rb) rs).length := by
        rw [divNumerator_eq, List.length_append]
        exact Nat.le_add_right_of_le (List.length_pos_iff.mpr (decimal_ne_nil _))
      exact (length_le_of_divide (allDigits_divNumerator _ rs) hne hpos hq).trans hnumerator

end Sys2Proof.Machine

/-! The composite commands against the unit commands (spec/44_transforms.md R151): each sequence of unit commands computes the
composite command's own sequences in the digit registers. -/

namespace Sys2Proof.Machine

/-! ### One command of a list (R72) -/

/-- A command that completes with an error ends the list. -/
theorem runCommands_cons_error {i : Instr} {s : State} {e : ErrCode} (h : commandResult i s.snapshot = .error e)
    (rest : List Instr) : runCommands (i :: rest) s = none := by
  simp [runCommands, exec_eq_complete, h]

/-- A command that writes a sequence: the list goes on where D[rd] is a readable source of it, and M and the other digit
registers are unchanged. -/
theorem runCommands_cons_digits {i : Instr} {s : State} {rd : DIdx} {q : DigitSeq}
    (h : commandResult i s.snapshot = .ok (.digits rd q)) (hlen : q.length ≤ 256) (hdigits : ∀ x ∈ q, x ≤ 9)
    (rest : List Instr) :
    ∃ t, runCommands (i :: rest) s = runCommands rest t ∧ t.m = s.m ∧ t.d[rd].Source q ∧
      ∀ k : DIdx, k ≠ rd → t.d[k] = s.d[k] := by
  obtain ⟨t, hexec, hok, -, hm, -, hother, hholds⟩ := exec_wroteDigits (s := s.accept (encode i) 0) h hlen hdigits
  exact ⟨t, runCommands_cons_of_completedOk rest hexec hok, hm, ⟨hholds, hlen, hdigits⟩, hother⟩

/-- A command without destination: the list goes on where M and D are unchanged. -/
theorem runCommands_cons_nothing {i : Instr} {s : State} (h : commandResult i s.snapshot = .ok .none)
    (rest : List Instr) : ∃ t, runCommands (i :: rest) s = runCommands rest t ∧ t.m = s.m ∧ t.d = s.d := by
  obtain ⟨t, hexec, hok, -, hm, hd, -⟩ := exec_wroteNothing (s := s.accept (encode i) 0) h
  exact ⟨t, runCommands_cons_of_completedOk rest hexec hok, hm, hd⟩

/-- One command that writes M[rd], alone or with RSCALE, leaves the value there. -/
theorem map_runCommands_single {i : Instr} {s : State} {rd : MIdx} {v : Mag} {e : Effect}
    (h : commandResult i s.snapshot = .ok e) (he : e = .mag rd v ∨ ∃ rs, e = .decimal rd v rs) :
    (runCommands [i] s).map (·.m[rd]) = some v := by
  have hrun : runCommands [i] s = some ((s.accept (encode i) 0).completeOk e) := by
    simp [runCommands, exec_eq_complete, h]
  rw [hrun, Option.map_some, State.completeOk_m]
  obtain rfl | ⟨rs, rfl⟩ := he <;> exact congrArg some (Vector.getElem_set_self rd.isLt)

/-! ### The unit commands -/

theorem natAbs_toInt_of_nonneg {x : Mag} (h : 0 ≤ x.toInt) : x.toInt.natAbs = x.toNat := by
  have hlt := x.isLt
  rw [BitVec.toInt_eq_toNat_cond] at h ⊢
  split_ifs at h ⊢ <;> omega

/-- TODIG of an operand that is not negative leaves the digits of its magnitude (R80). -/
theorem runCommands_todig {s : State} (x : DIdx) {ra : MIdx} (ha : 0 ≤ s.m[ra].toInt) (rest : List Instr) :
    ∃ t, runCommands (.todig x ra :: rest) s = runCommands rest t ∧ t.m = s.m ∧
      t.d[x].Source (decimal s.m[ra].toInt.natAbs) ∧ ∀ k : DIdx, k ≠ x → t.d[k] = s.d[k] := by
  rw [natAbs_toInt_of_nonneg ha]
  have hresult : commandResult (.todig x ra) s.snapshot = .ok (.digits x (decimal s.m[ra].toNat)) := by
    rw [commandResult, todigResult, digitsOf_eq_decimal]
    rfl
  exact runCommands_cons_digits hresult ((length_decimal_toNat_le _).trans (by decide))
    (fun _ h => le_nine_of_mem_decimal h) rest

/-- DALIGN within the capacity leaves the alignment (R91). -/
theorem runCommands_dalign {s : State} {x : DIdx} (z : DIdx) (src tgt : Nat) {q : DigitSeq} (hsource : s.d[x].Source q)
    (hfits : (align q src tgt).length ≤ 256) (rest : List Instr) :
    ∃ t, runCommands (.dalign z x src tgt :: rest) s = runCommands rest t ∧ t.m = s.m ∧
      t.d[z].Source (align q src tgt) ∧ ∀ k : DIdx, k ≠ z → t.d[k] = s.d[k] :=
  runCommands_cons_digits (commandResult_dalign z src tgt hsource hfits) hfits
    (le_nine_of_mem_align (allDigits_iff.mp (allDigits_of_source hsource)) src tgt) rest

/-- OVCHK and FROMDIG of a readable source: an error beyond 76 digits, else the value, which 256 bits hold (R94, R82). -/
theorem map_runCommands_ovchk_fromdig {s : State} {z : DIdx} {q : DigitSeq} (rd : MIdx) (hsource : s.d[z].Source q) :
    (runCommands [.ovchk z, .fromdig rd z] s).map (·.m[rd]) =
      if overflows q then none else some (BitVec.ofNat 256 (value q)) := by
  have hguard := ovchkResult_of_read (src := s.snapshot) (DigitReg.read_of_source hsource)
  split
  case isTrue hover =>
    rw [if_pos hover] at hguard
    rw [runCommands_cons_error (i := .ovchk z) hguard, Option.map_none]
  case isFalse hfits =>
    rw [if_neg hfits] at hguard
    obtain ⟨t, hrun, -, hd⟩ := runCommands_cons_nothing (i := .ovchk z) hguard [.fromdig rd z]
    rw [← hd] at hsource
    have hlength : q.length ≤ 76 := Nat.not_lt.mp (mt overflows_iff.mpr hfits)
    have hvalue : value q < 10 ^ 76 :=
      (value_lt q (allDigits_of_source hsource)).trans_le (Nat.pow_le_pow_right (by decide) hlength)
    have hresult := fromdigResult_of_read (src := t.snapshot) rd (DigitReg.read_of_source hsource)
    rw [if_neg (Nat.not_lt.mpr (hvalue.le.trans (by decide)))] at hresult
    rw [hrun, map_runCommands_single (i := .fromdig rd z) hresult (.inl rfl)]
    rfl

/-- DDIV fails where the divisor is 0 or the division fails (R112). -/
theorem runCommands_ddiv_error {s : State} {x z : DIdx} {rb : MIdx} {n : DigitSeq} (hsource : s.d[x].Source n)
    (h : s.m[rb].toNat = 0 ∨ ∃ e, divide n s.m[rb].toNat = .error e) (rest : List Instr) :
    runCommands (.ddiv z x rb :: rest) s = none := by
  have hresult := commandResult_ddiv (rd := z) (rb := rb) (src := s.snapshot) hsource
  by_cases hzero : s.m[rb].toNat = 0
  · exact runCommands_cons_error (hresult.trans (if_pos hzero)) rest
  · obtain ⟨e, he⟩ := h.resolve_left hzero
    rw [State.snapshot_m, if_neg hzero, he] at hresult
    exact runCommands_cons_error hresult rest

/-- Where the division answers, DDIV, OVCHK and FROMDIG leave the quotient's value, or an error beyond 76 digits. -/
theorem map_runCommands_ddiv {s : State} {x z : DIdx} {rb : MIdx} {n q : DigitSeq} (rd : MIdx) (hsource : s.d[x].Source n)
    (hd : s.m[rb].toNat ≠ 0) (hq : divide n s.m[rb].toNat = .ok q) (hlen : q.length ≤ 256) :
    (runCommands [.ddiv z x rb, .ovchk z, .fromdig rd z] s).map (·.m[rd]) =
      if overflows q then none else some (BitVec.ofNat 256 (value q)) := by
  have hresult := commandResult_ddiv (rd := z) (rb := rb) (src := s.snapshot) hsource
  rw [State.snapshot_m, if_neg hd, hq] at hresult
  have hdigits : ∀ y ∈ q, y ≤ 9 := by
    rw [divide_eq_digitsOf (allDigits_of_source hsource) (Nat.pos_of_ne_zero hd) hq, digitsOf_eq_decimal]
    exact fun _ hy => le_nine_of_mem_decimal hy
  obtain ⟨t, hdivision, -, hz, -⟩ := runCommands_cons_digits hresult hlen hdigits [.ovchk z, .fromdig rd z]
  rw [hdivision, map_runCommands_ovchk_fromdig rd hz]

/-! ### Operands that are not negative -/

/-- With operands that are not negative, and a magnitude of 0 where one of them is 0, reassembly is the magnitude. -/
theorem Operands.reassemble_of_nonneg {o : Operands} {q : DigitSeq} (ha : 0 ≤ o.a) (hb : 0 ≤ o.b)
    (hzero : o.a = 0 ∨ o.b = 0 → value q = 0) : o.reassemble q = BitVec.ofNat 256 (value q) := by
  have hsign : o.sign * (value q : Int) = (value q : Int) := by
    by_cases h : o.a = 0 ∨ o.b = 0
    · rw [hzero h, Nat.cast_zero, Int.mul_zero]
    · obtain ⟨ha0, hb0⟩ := not_or.mp h
      rw [Operands.sign, Int.sign_eq_one_of_pos (lt_of_le_of_ne ha (Ne.symm ha0)),
        Int.sign_eq_one_of_pos (lt_of_le_of_ne hb (Ne.symm hb0)), Int.mul_one, Int.one_mul]
  rw [Operands.reassemble, hsign]
  exact BitVec.ofInt_natCast 256 (value q)

/-! ### MULDEC -/

/-- Without an error MULDEC of operands that are not negative leaves the value of the aligned product. -/
theorem map_runCommands_muldec {i : Instr} {s : State} {rd ra rb : MIdx} {x : Option Nat} {rs : Nat} {o : Operands}
    (hi : commandResult i s.snapshot = muldecResult s.snapshot rd ra rb x) (ho : s.snapshot.operands ra rb = o)
    (hscale : o.resultScale x = .ok rs) (ha : 0 ≤ o.a) (hb : 0 ≤ o.b) :
    (runCommands [i] s).map (·.m[rd]) =
      if overflows (mulScratch o rs).p2 then none else some (BitVec.ofNat 256 (value (mulScratch o rs).p2)) := by
  rw [muldecResult_of_scale (by rwa [ho]), ho] at hi
  split
  case isTrue hover =>
    rw [if_pos hover] at hi
    rw [runCommands_cons_error hi, Option.map_none]
  case isFalse hfits =>
    have hzero : o.a = 0 ∨ o.b = 0 → value (mulScratch o rs).p2 = 0 := by
      intro h
      have hproduct : o.a.natAbs * o.b.natAbs = 0 := by
        rw [← Int.natAbs_mul, Int.mul_eq_zero.mpr h, Int.natAbs_zero]
      rw [value_mulScratch_p2, mulMagnitude, hproduct, Nat.zero_mul, Nat.zero_div, ite_self]
    rw [if_neg hfits, Operands.reassemble_of_nonneg ha hb hzero] at hi
    exact map_runCommands_single hi (.inr ⟨rs, rfl⟩)

/-- DMUL and DALIGN of readable sources that hold the magnitudes' digits leave the aligned product, which is within the
capacity at legal scales (R150). -/
theorem runCommands_dmul_dalign {s : State} {x y z : DIdx} {o : Operands} {rs : Nat}
    (hx : s.d[x].Source (decimal o.a.natAbs)) (hy : s.d[y].Source (decimal o.b.natAbs))
    (hp : (mulScratch o rs).p.length ≤ 154) (hp2 : (mulScratch o rs).p2.length ≤ 230) (rest : List Instr) :
    ∃ t, runCommands (.dmul z x y :: .dalign z z (o.sA + o.sB) rs :: rest) s = runCommands rest t ∧
      t.d[z].Source (mulScratch o rs).p2 := by
  rw [mulScratch_p] at hp
  rw [mulScratch_p2] at hp2 ⊢
  have hproduct : commandResult (.dmul z x y) s.snapshot = .ok (.digits z (decimal (o.a.natAbs * o.b.natAbs))) := by
    have hsmall := (length_decimal_le_iff _ 256 (by decide)).mp (hp.trans (by decide))
    rw [commandResult_dmul hx hy, decimalValue_decimal, decimalValue_decimal]
    exact if_neg (Nat.not_le.mpr hsmall)
  obtain ⟨u, hdmul, -, hsource, -⟩ := runCommands_cons_digits hproduct (hp.trans (by decide))
    (fun _ h => le_nine_of_mem_decimal h) (.dalign z z (o.sA + o.sB) rs :: rest)
  have hfits := hp2.trans (show 230 ≤ 256 by decide)
  obtain ⟨t, hdalign, -, hsource, -⟩ := runCommands_dalign (x := z) z _ _ hsource hfits rest
  exact ⟨t, hdmul.trans hdalign, hsource⟩

/-! ### DIVDEC -/

/-- Without an error DIVDEC of operands that are not negative leaves the value of the quotient. -/
theorem map_runCommands_divdec {i : Instr} {s : State} {rd ra rb : MIdx} {x : Option Nat} {rs : Nat} {o : Operands}
    (hi : commandResult i s.snapshot = divdecResult s.snapshot rd ra rb x) (ho : s.snapshot.operands ra rb = o)
    (hscale : o.resultScale x = .ok rs) (ha : 0 ≤ o.a) (hb : 0 ≤ o.b) {q : DigitSeq} (hb0 : o.b ≠ 0)
    (hq : divide (divNumerator o rs) o.b.natAbs = .ok q) :
    (runCommands [i] s).map (·.m[rd]) = if overflows q then none else some (BitVec.ofNat 256 (value q)) := by
  rw [divdecResult_of_scale (by rwa [ho]), ho, if_neg hb0, hq, Except.bind] at hi
  split
  case isTrue hover =>
    rw [if_pos hover] at hi
    rw [runCommands_cons_error hi, Option.map_none]
  case isFalse hfits =>
    have hzero : o.a = 0 ∨ o.b = 0 → value q = 0 := by
      intro h
      have hd : 1 ≤ o.b.natAbs := Nat.pos_of_ne_zero (Int.natAbs_ne_zero.mpr hb0)
      rw [divide_eq_digitsOf (allDigits_divNumerator o rs) hd hq, value_digitsOf, value_divNumerator,
        h.resolve_right hb0, Int.natAbs_zero, Nat.zero_mul, Nat.zero_div]
    rw [if_neg hfits, Operands.reassemble_of_nonneg ha hb hzero] at hi
    exact map_runCommands_single hi (.inr ⟨rs, rfl⟩)

/-- DIVDEC fails where the divisor is 0 or the division fails. -/
theorem runCommands_divdec_error {i : Instr} {s : State} {rd ra rb : MIdx} {x : Option Nat} {rs : Nat} {o : Operands}
    (hi : commandResult i s.snapshot = divdecResult s.snapshot rd ra rb x) (ho : s.snapshot.operands ra rb = o)
    (hscale : o.resultScale x = .ok rs) (h : o.b = 0 ∨ ∃ e, divide (divNumerator o rs) o.b.natAbs = .error e) :
    runCommands [i] s = none := by
  rw [divdecResult_of_scale (by rwa [ho]), ho] at hi
  by_cases hb0 : o.b = 0
  · rw [if_pos hb0] at hi
    exact runCommands_cons_error hi []
  · obtain ⟨e, he⟩ := h.resolve_left hb0
    rw [if_neg hb0, he] at hi
    exact runCommands_cons_error hi []

/-- TODIG and DPAD leave the padded dividend, which is within the capacity (R150). -/
theorem runCommands_todig_dpad {s : State} {ra : MIdx} {o : Operands} {rs : Nat} (x : DIdx) (ha : 0 ≤ s.m[ra].toInt)
    (ho : o.a = s.m[ra].toInt) (hfits : (divNumerator o rs).length ≤ 229) (rest : List Instr) :
    ∃ t, runCommands (.todig x ra :: .dpad x x (divPadding o.sA o.sB rs) :: rest) s = runCommands rest t ∧ t.m = s.m ∧
      t.d[x].Source (divNumerator o rs) := by
  have hnumerator : align (decimal s.m[ra].toInt.natAbs) 0 (divPadding o.sA o.sB rs) = divNumerator o rs := by
    rw [divNumerator, digitsOf_eq_decimal, padDiv_eq_divPadding, ho]
  obtain ⟨u, htodig, hum, hsource, -⟩ := runCommands_todig x ha (.dpad x x (divPadding o.sA o.sB rs) :: rest)
  rw [← hnumerator] at hfits ⊢
  obtain ⟨t, hdpad, htm, hsource, -⟩ := runCommands_dalign x 0 _ hsource (hfits.trans (by decide)) rest
  exact ⟨t, htodig.trans hdpad, htm.trans hum, hsource⟩

/-- The scale check of either form passes at legal scales and gives the form's result scale (R131, R132). -/
theorem resultScale_of_form {o : Operands} {x : Option Nat} {rs : Nat} (hA : o.sA ≤ 76) (hB : o.sB ≤ 76) (hrs : rs ≤ 76)
    (h : x = some rs ∨ x = none ∧ rs = max o.sA o.sB) : o.resultScale x = .ok rs :=
  Operands.resultScale_eq_ok.mpr ⟨hA, hB, hrs, by obtain rfl | ⟨rfl, rfl⟩ := h <;> rfl⟩

/-! ### The obligations -/

/-- Settles O32: the unit commands build the aligned product of the transform, and both guard it and leave its value. -/
theorem muldecEqualsUnitCommands : Obligations.MuldecEqualsUnitCommands := by
  intro s rd ra rb x y z i sA sB rs hsA hsB hA hB hrs hxy ha hb hi
  rw [← scaleA_eq] at hsA
  rw [← scaleB_eq] at hsB
  subst hsA hsB
  obtain ⟨-, -, hp, hp2, -⟩ := compositeCapacity s.snapshot ra rb rs hA hB hrs
  obtain ⟨t₁, htodigA, hm₁, hx, -⟩ := runCommands_todig x ha
    [.todig y rb, .dmul z x y, .dalign z z (scaleA s.scale + scaleB s.scale) rs, .ovchk z, .fromdig rd z]
  rw [← hm₁] at hb
  obtain ⟨t₂, htodigB, -, hy, hkept⟩ := runCommands_todig y hb
    [.dmul z x y, .dalign z z (scaleA s.scale + scaleB s.scale) rs, .ovchk z, .fromdig rd z]
  rw [← hkept x hxy] at hx
  rw [hm₁] at hb hy
  obtain ⟨t₃, hproduct, hz⟩ := runCommands_dmul_dalign (z := z) (o := s.snapshot.operands ra rb) hx hy hp hp2
    [.ovchk z, .fromdig rd z]
  obtain ⟨form, hresult, hscale⟩ : ∃ form, commandResult i s.snapshot = muldecResult s.snapshot rd ra rb form ∧
      (s.snapshot.operands ra rb).resultScale form = .ok rs := by
    obtain rfl | ⟨rfl, hmax⟩ := hi
    · exact ⟨some rs, rfl, resultScale_of_form hA hB hrs (.inl rfl)⟩
    · exact ⟨none, rfl, resultScale_of_form hA hB hrs (.inr ⟨rfl, hmax⟩)⟩
  rw [(htodigA.trans htodigB).trans hproduct, map_runCommands_ovchk_fromdig rd hz,
    map_runCommands_muldec hresult rfl hscale ha hb]

/-- Settles O33: the unit commands build the padded dividend of the transform, and both divide it, with the same error, guard
the quotient and leave its value. -/
theorem divdecEqualsUnitCommands : Obligations.DivdecEqualsUnitCommands := by
  intro s rd ra rb x z i sA sB rs hsA hsB hA hB hrs ha hb hi
  rw [← scaleA_eq] at hsA
  rw [← scaleB_eq] at hsB
  subst hsA hsB
  obtain ⟨form, hresult, hscale⟩ : ∃ form, commandResult i s.snapshot = divdecResult s.snapshot rd ra rb form ∧
      (s.snapshot.operands ra rb).resultScale form = .ok rs := by
    obtain rfl | ⟨rfl, hmax⟩ := hi
    · exact ⟨some rs, rfl, resultScale_of_form hA hB hrs (.inl rfl)⟩
    · exact ⟨none, rfl, resultScale_of_form hA hB hrs (.inr ⟨rfl, hmax⟩)⟩
  obtain ⟨-, -, -, -, hnumerator, hquotient⟩ := compositeCapacity s.snapshot ra rb rs hA hB hrs
  obtain ⟨t, hunits, hm, hx⟩ := runCommands_todig_dpad (o := s.snapshot.operands ra rb) x ha rfl hnumerator
    [.ddiv z x rb, .ovchk z, .fromdig rd z]
  have hdivisor : t.m[rb].toNat = (s.snapshot.operands ra rb).b.natAbs := by
    rw [hm]
    exact (natAbs_toInt_of_nonneg hb).symm
  refine (congrArg (Option.map (·.m[rd])) hunits).trans ?_
  by_cases herror : (s.snapshot.operands ra rb).b.natAbs = 0 ∨
      ∃ e, divide (divNumerator (s.snapshot.operands ra rb) rs) (s.snapshot.operands ra rb).b.natAbs = .error e
  · rw [runCommands_divdec_error hresult rfl hscale (herror.imp_left Int.natAbs_eq_zero.mp),
      runCommands_ddiv_error hx (hdivisor ▸ herror) _]
  · obtain ⟨hb0, hok⟩ := not_or.mp herror
    cases hq : divide (divNumerator (s.snapshot.operands ra rb) rs) (s.snapshot.operands ra rb).b.natAbs with
    | error e => exact absurd ⟨e, hq⟩ hok
    | ok q =>
      rw [map_runCommands_divdec hresult rfl hscale ha hb (mt Int.natAbs_eq_zero.mpr hb0) hq]
      rw [← hdivisor] at hb0
      exact map_runCommands_ddiv rd hx hb0 (hdivisor ▸ hq) ((hquotient q hq).trans (by decide))

end Sys2Proof.Machine
